-- ==== Sys2Proof/Word.lean ====
section
/-! DEFINITION. The widths the block works with (00_scope.md R8, R10, R11): 32-bit registers and command words,
8-bit bytes, and byte strings, indexed from 0 with the first byte first. -/

namespace Sys2Proof

/-- A 32-bit register or command word (R8 `REG_WIDTH`). -/
abbrev Word := BitVec 32

/-- One byte of a byte string, of a key or of FBUF. -/
abbrev Byte := BitVec 8

/-- A byte string (R11): `S[i]` is the element at index i. -/
abbrev Bytes := List Byte

end Sys2Proof
end

