-- ==== Sys2Proof/Config.lean ====
section
/-! DEFINITION. The fixed parameters of the block (00_scope.md R8). The parameters R9 leaves open are data of the
machine's surroundings, not constants: `BASE`, `IRQ_LINE` and `N_INST` are fields of `Machine.Platform`, and `T_OP` is
the place of the event `complete` in `State.script` (log 1, log 12). No rule leaves a value open that a command
computes, so there is no opaque constant here. -/

namespace Sys2Proof.Config

/-- Size in bytes of the window the block decodes, offsets 0x000 to 0x1FF (R8 `ADDR_BITS` = 9, R48). -/
def windowSize : Nat := 512

/-- Window offset of FBUF, and so the size of the register area (R49). -/
def fbufBase : Nat := 256

/-- Number of bytes of FBUF (R8 `FBUF_SIZE`). -/
def fbufSize : Nat := 256

/-- The CRC polynomial (R8 `CRC_POLY`). -/
def crcPoly : BitVec 16 := 0x3D65#16

/-- The CRC start value (R8 `CRC_INIT`). -/
def crcInit : BitVec 16 := 0x0000#16

/-- The identification the register `ID` reads as (R3, R22). -/
def idValue : Word := 0x574D0701#32

/-- The widths the BCD decoder accepts (R8, R84). -/
def bcdWidths : List Nat := [1, 2, 3, 4, 6]

/-- The MAC lengths in bytes that can be verified (R8, R85), in the order of their codes `MLC` = 0 to 4. -/
def macLengths : List Nat := [2, 4, 8, 12, 16]

end Sys2Proof.Config
end

