-- ==== Sys2Proof/Syntax.lean ====
section
/-! DEFINITION. The command set (00_scope.md R2): one constructor per row of spec/opcode_table.json, its operands as
the assembler form of 30_encoding.md R95 has them. Offsets, lengths, widths and counts are numbers (R10: register and
field arithmetic is exact); what the encoding admits of them is Instr.wf. Bits [31:29] and the other reserved bits
have no operand: every command has them 0 (R77). -/

namespace Sys2Proof

/-- The key a command selects by `KSEL` (R80): 0 `kconf`, 1 `kenc`, 2 `kmac`. The value 3 is reserved: no
constructor. -/
inductive KeySel where
  | kconf
  | kenc
  | kmac
  deriving DecidableEq, Repr

/-- The key `KDF` derives, by its field `DC` (R87): 0 `kenc`, 1 `kmac`. -/
inductive DerivedKey where
  | kenc
  | kmac
  deriving DecidableEq, Repr

/-- The ten commands (R2, R89). -/
inductive Instr where
  /-- `NOP` (R135). -/
  | nop
  /-- `CRC16` (R99): offset and length of the FBUF range. -/
  | crc16 (off len : Nat)
  /-- `BCD` (R102): offset and width in bytes. -/
  | bcd (off wid : Nat)
  /-- `CTR` (R118): key, offset, length. -/
  | ctr (key : KeySel) (off len : Nat)
  /-- `CBCIV` (R122): key, offset, length. -/
  | cbciv (key : KeySel) (off len : Nat)
  /-- `CBCZ` (R124): key, offset, number of blocks. -/
  | cbcz (key : KeySel) (off nblk : Nat)
  /-- `CMAC` (R128): key, offset, length, `PFX`. -/
  | cmac (key : KeySel) (off len : Nat) (pfx : Bool)
  /-- `CMACV` (R130): key, offset, length, MAC length in bytes (`MLC` through R85), `PFX`. -/
  | cmacv (key : KeySel) (off len maclen : Nat) (pfx : Bool)
  /-- `KDF` (R132): the key it derives. `SEL` is 1 in every legal word (R87). -/
  | kdf (dc : DerivedKey)
  /-- `KCLR` (R136): `ALL`. -/
  | kclr (all : Bool)
  deriving DecidableEq, Repr

end Sys2Proof
end

