-- ==== Sys2Proof/WellFormed.lean ====
section
/-! DEFINITION. Which commands the encoding can express (30_encoding.md R81 to R85): the widths of the number fields,
the legal BCD widths and the legal MAC lengths. A reserved value of a field is ILLEGAL (R90, R91). -/

namespace Sys2Proof

/-- The operands fit their fields and no reserved value stands in one: `OFF` is 8 bits (R81), `LEN` 9 bits (R82),
`NBLK` 4 bits (R83), `WID` one of 1, 2, 3, 4, 6 (R84), the MAC length one of 2, 4, 8, 12, 16 (R85). -/
def Instr.wf : Instr → Bool
  | .nop => true
  | .crc16 off len => decide (off < 256) && decide (len < 512)
  | .bcd off wid => decide (off < 256) && decide (wid ∈ Config.bcdWidths)
  | .ctr _ off len => decide (off < 256) && decide (len < 512)
  | .cbciv _ off len => decide (off < 256) && decide (len < 512)
  | .cbcz _ off nblk => decide (off < 256) && decide (nblk < 16)
  | .cmac _ off len _ => decide (off < 256) && decide (len < 512)
  | .cmacv _ off len maclen _ => decide (off < 256) && decide (len < 512) && decide (maclen ∈ Config.macLengths)
  | .kdf _ => true
  | .kclr _ => true

end Sys2Proof
end

