-- ==== Sys2Proof/Decode.lean ====
section
/-! DEFINITION. Decoding a command word (30_encoding.md R76 to R91): total on every 32-bit word, rejecting by name; and
the encoder, written from the format rules R78 and R79. A command is one 32-bit word written to `CMD` (R76), so the
decoder reads a word; there is no length decoding. -/

namespace Sys2Proof

/-- Why a word is illegal (R90), one reason per line of `decode`. All of them complete with `ILLEGAL`. -/
inductive Illegal where
  /-- No row of the opcode map matches: a reserved opcode, a reserved bit set, or `SEL` other than 1 (R90, R91). -/
  | noRow
  /-- `KSEL` = 3 (R80). -/
  | reservedKsel
  /-- `WID` in 0, 5, 7 (R84). -/
  | reservedWid
  /-- `MLC` in 5, 6, 7 (R85). -/
  | reservedMlc
  deriving DecidableEq, Repr

/-- The rows of the opcode map (R89). -/
inductive Op where
  | nop
  | crc16
  | bcd
  | ctr
  | cbciv
  | cbcz
  | cmac
  | cmacv
  | kdf
  | kclr
  deriving DecidableEq, Repr

/-- Every row, in the order of R89. -/
def Op.all : List Op := [.nop, .crc16, .bcd, .ctr, .cbciv, .cbcz, .cmac, .cmacv, .kdf, .kclr]

/-- The `mask` column of R89. -/
def Op.mask : Op → Word
  | .nop => 0xFFFFFFFF#32
  | .crc16 => 0xFE0000FF#32
  | .bcd => 0xFFF800FF#32
  | .ctr => 0xFE00003F#32
  | .cbciv => 0xFE00003F#32
  | .cbcz => 0xFFF0003F#32
  | .cmac => 0xEE00003F#32
  | .cmacv => 0xE000003F#32
  | .kdf => 0xFFFFFEFF#32
  | .kclr => 0xFFFFFEFF#32

/-- The `match` column of R89. -/
def Op.pattern : Op → Word
  | .nop => 0x00000000#32
  | .crc16 => 0x00000001#32
  | .bcd => 0x00000002#32
  | .ctr => 0x00000010#32
  | .cbciv => 0x00000011#32
  | .cbcz => 0x00000012#32
  | .cmac => 0x00000020#32
  | .cmacv => 0x00000021#32
  | .kdf => 0x00000230#32
  | .kclr => 0x00000031#32

/-- A word selects a row when `(w AND mask) = match` (R89). -/
def Op.selects (o : Op) (w : Word) : Bool := (w &&& o.mask) == o.pattern

/-- The row a word selects, if any (R90). -/
def rowOf (w : Word) : Option Op := Op.all.find? fun o => o.selects w

/-- The field of `width` bits from bit `lo` up, as an unsigned number (R10 `v[hi:lo]`). -/
def field (w : Word) (lo width : Nat) : Nat := w.toNat / 2 ^ lo % 2 ^ width

/-- `OFF`, bits [15:8] (R81). -/
def fieldOff (w : Word) : Nat := field w 8 8

/-- `LEN`, bits [24:16] (R82). -/
def fieldLen (w : Word) : Nat := field w 16 9

/-- `NBLK`, bits [19:16] (R83). -/
def fieldNblk (w : Word) : Nat := field w 16 4

/-- `WID`, bits [18:16] (R84). -/
def fieldWid (w : Word) : Nat := field w 16 3

/-- `PFX`, bit 28 (R86). -/
def fieldPfx (w : Word) : Bool := decide (field w 28 1 = 1)

/-- `ALL`, bit 8 (R88). -/
def fieldAll (w : Word) : Bool := decide (field w 8 1 = 1)

/-- `DC`, bit 8 (R87). -/
def fieldDc (w : Word) : DerivedKey := if field w 8 1 = 1 then .kmac else .kenc

/-- `KSEL`, bits [7:6] (R80). -/
def fieldKey (w : Word) : Except Illegal KeySel :=
  match field w 6 2 with
  | 0 => .ok .kconf
  | 1 => .ok .kenc
  | 2 => .ok .kmac
  | _ => .error .reservedKsel

/-- `maclen(MLC)` of bits [27:25] (R85). -/
def fieldMaclen (w : Word) : Except Illegal Nat :=
  match field w 25 3 with
  | 0 => .ok 2
  | 1 => .ok 4
  | 2 => .ok 8
  | 3 => .ok 12
  | 4 => .ok 16
  | _ => .error .reservedMlc

/-- `decode(w)` (R90): total; a word it rejects is called `ILLEGAL` by the spec. -/
def decode (w : Word) : Except Illegal Instr :=
  match rowOf w with
  | none => .error .noRow
  | some .nop => .ok .nop
  | some .crc16 => .ok (.crc16 (fieldOff w) (fieldLen w))
  | some .bcd =>
    if fieldWid w ∈ Config.bcdWidths then .ok (.bcd (fieldOff w) (fieldWid w)) else .error .reservedWid
  | some .ctr =>
    match fieldKey w with
    | .ok k => .ok (.ctr k (fieldOff w) (fieldLen w))
    | .error e => .error e
  | some .cbciv =>
    match fieldKey w with
    | .ok k => .ok (.cbciv k (fieldOff w) (fieldLen w))
    | .error e => .error e
  | some .cbcz =>
    match fieldKey w with
    | .ok k => .ok (.cbcz k (fieldOff w) (fieldNblk w))
    | .error e => .error e
  | some .cmac =>
    match fieldKey w with
    | .ok k => .ok (.cmac k (fieldOff w) (fieldLen w) (fieldPfx w))
    | .error e => .error e
  | some .cmacv =>
    match fieldKey w with
    | .error e => .error e
    | .ok k =>
      match fieldMaclen w with
      | .ok m => .ok (.cmacv k (fieldOff w) (fieldLen w) m (fieldPfx w))
      | .error e => .error e
  | some .kdf => .ok (.kdf (fieldDc w))
  | some .kclr => .ok (.kclr (fieldAll w))

/-! ### The encoder (R78, R79, R95) -/

/-- `KSEL` of a key (R80). -/
def KeySel.code : KeySel → Nat
  | .kconf => 0
  | .kenc => 1
  | .kmac => 2

/-- `DC` of a derived key (R87). -/
def DerivedKey.code : DerivedKey → Nat
  | .kenc => 0
  | .kmac => 1

/-- The code `MLC` of a MAC length (R85), its place in the list of lengths. -/
def mlcOf (maclen : Nat) : Nat := Config.macLengths.idxOf maclen

/-- Format R (R78): `OPC | KSEL<<6 | OFF<<8 | LEN<<16 | MLC<<25 | PFX<<28`, as a sum since the fields do not overlap. -/
def formatR (opc ksel off len mlc pfx : Nat) : Nat :=
  opc + ksel * 2 ^ 6 + off * 2 ^ 8 + len * 2 ^ 16 + mlc * 2 ^ 25 + pfx * 2 ^ 28

/-- The number of a command word (R78, R79). -/
def encodeNat : Instr → Nat
  | .nop => 0x00
  | .crc16 off len => formatR 0x01 0 off len 0 0
  | .bcd off wid => 0x02 + off * 2 ^ 8 + wid * 2 ^ 16
  | .ctr k off len => formatR 0x10 k.code off len 0 0
  | .cbciv k off len => formatR 0x11 k.code off len 0 0
  | .cbcz k off nblk => 0x12 + k.code * 2 ^ 6 + off * 2 ^ 8 + nblk * 2 ^ 16
  | .cmac k off len pfx => formatR 0x20 k.code off len 0 pfx.toNat
  | .cmacv k off len maclen pfx => formatR 0x21 k.code off len (mlcOf maclen) pfx.toNat
  | .kdf dc => 0x30 + dc.code * 2 ^ 8 + 1 * 2 ^ 9
  | .kclr all => 0x31 + all.toNat * 2 ^ 8

/-- The command word of a well-formed command (R78, R79). -/
def encode (i : Instr) : Word := BitVec.ofNat 32 (encodeNat i)

/-- The word that the low `nbits` bits of `w` and zeros above them make (the host's numbering of a table row's bits:
bit 0 is the least significant bit of the command word, which is one word, R76). -/
def tableWord (nbits w : Nat) : Word := BitVec.ofNat 32 (w % 2 ^ nbits)

/-- The instruction the decoder reads from a table row's bits, none where it refuses. -/
def decodeTableWord (nbits w : Nat) : Option Instr :=
  match decode (tableWord nbits w) with
  | .ok i => some i
  | .error _ => none

end Sys2Proof
end

