-- ==== Sys2Proof/Machine/Aes.lean ====
section
/-! DEFINITION. The AES-128 block cipher, its inverse, and AES-CMAC (41_aes_core.md R104 to R113). The spec marks this
whole file of its own as general knowledge (FIPS-197, SP 800-38B); the model takes it as the spec gives it (log 4). -/

namespace Sys2Proof.Machine

/-- One column of the AES state, `s[0][c]` to `s[3][c]` (R104). A word of the key schedule has the same shape (R108). -/
structure Col where
  r0 : Byte
  r1 : Byte
  r2 : Byte
  r3 : Byte
  deriving DecidableEq, Repr

/-- A 16-byte block as the 4 by 4 state array loaded column by column: byte `r + 4c` is row r of column c (R104). -/
structure Block where
  c0 : Col
  c1 : Col
  c2 : Col
  c3 : Col
  deriving DecidableEq, Repr

/-- Byte-wise exclusive or of two columns. -/
def Col.xor (a b : Col) : Col := ⟨a.r0 ^^^ b.r0, a.r1 ^^^ b.r1, a.r2 ^^^ b.r2, a.r3 ^^^ b.r3⟩

/-- The same function of each byte of a column. -/
def Col.map (f : Byte → Byte) (a : Col) : Col := ⟨f a.r0, f a.r1, f a.r2, f a.r3⟩

/-- The bytes of a column, row 0 first. -/
def Col.bytes (a : Col) : Bytes := [a.r0, a.r1, a.r2, a.r3]

/-- Byte-wise exclusive or of two blocks (R11); with a round key it is `AddRoundKey` (R109). -/
def Block.xor (a b : Block) : Block := ⟨a.c0.xor b.c0, a.c1.xor b.c1, a.c2.xor b.c2, a.c3.xor b.c3⟩

/-- The same function of each column of a block. -/
def Block.map (f : Col → Col) (a : Block) : Block := ⟨f a.c0, f a.c1, f a.c2, f a.c3⟩

/-- The block whose bytes are all 00. -/
def Block.zero : Block := ⟨⟨0, 0, 0, 0⟩, ⟨0, 0, 0, 0⟩, ⟨0, 0, 0, 0⟩, ⟨0, 0, 0, 0⟩⟩

/-- The block as a byte string (R104). -/
def Block.bytes (a : Block) : Bytes := a.c0.bytes ++ (a.c1.bytes ++ (a.c2.bytes ++ a.c3.bytes))

/-- The block of a 16-byte string (R104). Every use gives it 16 bytes; a missing byte would count as 00. -/
def Block.ofBytes (l : Bytes) : Block :=
  ⟨⟨l.getD 0 0, l.getD 1 0, l.getD 2 0, l.getD 3 0⟩, ⟨l.getD 4 0, l.getD 5 0, l.getD 6 0, l.getD 7 0⟩,
    ⟨l.getD 8 0, l.getD 9 0, l.getD 10 0, l.getD 11 0⟩, ⟨l.getD 12 0, l.getD 13 0, l.getD 14 0, l.getD 15 0⟩⟩

/-- Block i of a byte string, `S[16i +: 16]`. -/
def blockAt (S : Bytes) (i : Nat) : Block := Block.ofBytes ((S.drop (16 * i)).take 16)

/-! ### Arithmetic in GF(2^8) (R105) -/

/-- `xtime` (R105): multiplication by x modulo 0x11B. -/
def xtime (a : Byte) : Byte := (a <<< 1) ^^^ (if a.getLsbD 7 then 0x1B#8 else 0x00#8)

/-- `mul(a, b)` over the low `n` bits of b: the exclusive or of `xtime^i(a)` over the set bits i of b. -/
def gmulLow : Nat → Byte → Byte → Byte
  | 0, _, _ => 0
  | n + 1, a, b => (if b.getLsbD 0 then a else 0) ^^^ gmulLow n (xtime a) (b >>> 1)

/-- `mul(a, b)` (R105). -/
def gmul (a b : Byte) : Byte := gmulLow 8 a b

/-! ### The substitution tables (R106, R107) -/

/-- `SBOX`, one row of the table of R106 each: row = high nibble, the entry of column x0 in the top byte. -/
def sboxRows : List Nat :=
  [ 0x637C777BF26B6FC53001672BFED7AB76,
    0xCA82C97DFA5947F0ADD4A2AF9CA472C0,
    0xB7FD9326363FF7CC34A5E5F171D83115,
    0x04C723C31896059A071280E2EB27B275,
    0x09832C1A1B6E5AA0523BD6B329E32F84,
    0x53D100ED20FCB15B6ACBBE394A4C58CF,
    0xD0EFAAFB434D338545F9027F503C9FA8,
    0x51A3408F929D38F5BCB6DA2110FFF3D2,
    0xCD0C13EC5F974417C4A77E3D645D1973,
    0x60814FDC222A908846EEB814DE5E0BDB,
    0xE0323A0A4906245CC2D3AC629195E479,
    0xE7C8376D8DD54EA96C56F4EA657AAE08,
    0xBA78252E1CA6B4C6E8DD741F4BBD8B8A,
    0x703EB5664803F60E613557B986C11D9E,
    0xE1F8981169D98E949B1E87E9CE5528DF,
    0x8CA1890DBFE6426841992D0FB054BB16 ]

/-- `INV_SBOX` in the same layout (R107). -/
def invSboxRows : List Nat :=
  [ 0x52096AD53036A538BF40A39E81F3D7FB,
    0x7CE339829B2FFF87348E4344C4DEE9CB,
    0x547B9432A6C2233DEE4C950B42FAC34E,
    0x082EA16628D924B2765BA2496D8BD125,
    0x72F8F66486689816D4A45CCC5D65B692,
    0x6C704850FDEDB9DA5E154657A78D9D84,
    0x90D8AB008CBCD30AF7E45805B8B34506,
    0xD02C1E8FCA3F0F02C1AFBD0301138A6B,
    0x3A9111414F67DCEA97F2CFCEF0B4E673,
    0x96AC7422E7AD3585E2F937E81C75DF6E,
    0x47F11A711D29C5896FB7620EAA18BE1B,
    0xFC563E4BC6D279209ADBC0FE78CD5AF4,
    0x1FDDA8338807C731B11210592780EC5F,
    0x60517FA919B54A0D2DE57A9F93C99CEF,
    0xA0E03B4DAE2AF5B0C8EBBB3C83539961,
    0x172B047EBA77D626E169146355210C7D ]

/-- The entry of a table of 16 rows for the input byte a: row = high nibble, column = low nibble (R106). -/
def tableEntry (rows : List Nat) (a : Byte) : Byte :=
  BitVec.ofNat 8 (rows.getD (a.toNat / 16) 0 / 2 ^ (8 * (15 - a.toNat % 16)))

/-- `SBOX[a]` (R106). -/
def sbox (a : Byte) : Byte := tableEntry sboxRows a

/-- `INV_SBOX[a]` (R107). -/
def invSbox (a : Byte) : Byte := tableEntry invSboxRows a

/-! ### Key expansion (R108) -/

/-- `RotWord(a0 a1 a2 a3) = a1 a2 a3 a0` (R108). -/
def rotWord (w : Col) : Col := ⟨w.r1, w.r2, w.r3, w.r0⟩

/-- `SubWord` applies `SBOX` to each byte (R108). -/
def subWord (w : Col) : Col := w.map sbox

/-- `RCON[1..10]` (R108). -/
def rcons : List Byte := [0x01#8, 0x02#8, 0x04#8, 0x08#8, 0x10#8, 0x20#8, 0x40#8, 0x80#8, 0x1B#8, 0x36#8]

/-- The next four words of the key expansion (R108): the first with `RotWord`, `SubWord` and the round constant, each
later one from the word four before it and the word before it. -/
def nextRoundKey (rcon : Byte) (rk : Block) : Block :=
  let w0 := rk.c0.xor ((subWord (rotWord rk.c3)).xor ⟨rcon, 0, 0, 0⟩)
  let w1 := rk.c1.xor w0
  let w2 := rk.c2.xor w1
  ⟨w0, w1, w2, rk.c3.xor w2⟩

/-- The round keys from `rk` on, one for each round constant still to come and `rk` itself. -/
def roundKeysFrom : List Byte → Block → List Block
  | [], rk => [rk]
  | rcon :: rest, rk => rk :: roundKeysFrom rest (nextRoundKey rcon rk)

/-- The eleven round keys `RK[0..10]` (R108). -/
def roundKeys (K : Block) : List Block := roundKeysFrom rcons K

/-! ### Round transformations (R109) -/

/-- `SubBytes` (R109). -/
def subBytes (s : Block) : Block := s.map (Col.map sbox)

/-- `InvSubBytes` (R109). -/
def invSubBytes (s : Block) : Block := s.map (Col.map invSbox)

/-- `ShiftRows` (R109): `s'[r][c] = s[r][(c + r) mod 4]`. -/
def shiftRows (s : Block) : Block :=
  ⟨⟨s.c0.r0, s.c1.r1, s.c2.r2, s.c3.r3⟩, ⟨s.c1.r0, s.c2.r1, s.c3.r2, s.c0.r3⟩,
    ⟨s.c2.r0, s.c3.r1, s.c0.r2, s.c1.r3⟩, ⟨s.c3.r0, s.c0.r1, s.c1.r2, s.c2.r3⟩⟩

/-- `InvShiftRows` (R109): `s'[r][c] = s[r][(c - r) mod 4]`. -/
def invShiftRows (s : Block) : Block :=
  ⟨⟨s.c0.r0, s.c3.r1, s.c2.r2, s.c1.r3⟩, ⟨s.c1.r0, s.c0.r1, s.c3.r2, s.c2.r3⟩,
    ⟨s.c2.r0, s.c1.r1, s.c0.r2, s.c3.r3⟩, ⟨s.c3.r0, s.c2.r1, s.c1.r2, s.c0.r3⟩⟩

/-- One output byte of a column mix: the four coefficients times the four bytes of the column. -/
def mixByte (k0 k1 k2 k3 : Byte) (a : Col) : Byte :=
  gmul a.r0 k0 ^^^ (gmul a.r1 k1 ^^^ (gmul a.r2 k2 ^^^ gmul a.r3 k3))

/-- `MixColumns` on one column (R109). -/
def mixColumn (a : Col) : Col := ⟨mixByte 2 3 1 1 a, mixByte 1 2 3 1 a, mixByte 1 1 2 3 a, mixByte 3 1 1 2 a⟩

/-- `InvMixColumns` on one column (R109). -/
def invMixColumn (a : Col) : Col :=
  ⟨mixByte 14 11 13 9 a, mixByte 9 14 11 13 a, mixByte 13 9 14 11 a, mixByte 11 13 9 14 a⟩

/-- `MixColumns` (R109). -/
def mixColumns (s : Block) : Block := s.map mixColumn

/-- `InvMixColumns` (R109). -/
def invMixColumns (s : Block) : Block := s.map invMixColumn

/-! ### Cipher and inverse cipher (R110) -/

/-- The rounds of the cipher, by the round keys still to come; the last round has no `MixColumns` (R110). -/
def encRounds : Block → List Block → Block
  | s, [] => s
  | s, [rk] => (shiftRows (subBytes s)).xor rk
  | s, rk :: rks => encRounds ((mixColumns (shiftRows (subBytes s))).xor rk) rks

/-- The rounds of the inverse cipher, by the round keys still to come; the last round has no `InvMixColumns` (R110). -/
def decRounds : Block → List Block → Block
  | s, [] => s
  | s, [rk] => (invSubBytes (invShiftRows s)).xor rk
  | s, rk :: rks => decRounds (invMixColumns ((invSubBytes (invShiftRows s)).xor rk)) rks

/-- `AES_Enc(K, P)` (R104, R110). -/
def aesEnc (K P : Block) : Block :=
  match roundKeys K with
  | [] => P
  | rk :: rks => encRounds (P.xor rk) rks

/-- `AES_Dec(K, C)` (R104, R110): the round keys in the opposite order. -/
def aesDec (K C : Block) : Block :=
  match (roundKeys K).reverse with
  | [] => C
  | rk :: rks => decRounds (C.xor rk) rks

/-! ### CMAC (R111, R112) -/

/-- A block as a 128-bit big-endian number, `X[0]` most significant (R111). -/
def Block.toBe (a : Block) : BitVec 128 :=
  BitVec.ofNat 128 (a.bytes.foldl (fun v b => v * 256 + b.toNat) 0)

/-- The block of a 128-bit big-endian number (R111 "written back big-endian"). -/
def Block.ofBe (v : BitVec 128) : Block :=
  Block.ofBytes ((List.range 16).map fun i => BitVec.ofNat 8 (v.toNat / 2 ^ (8 * (15 - i))))

/-- `dbl(X)` (R111). -/
def dbl (a : Block) : Block :=
  Block.ofBe ((a.toBe <<< 1) ^^^ (if a.c0.r0.getLsbD 7 then 0x87#128 else 0#128))

/-- The subkey `K1` (R111). -/
def cmacK1 (K : Block) : Block := dbl (aesEnc K Block.zero)

/-- The subkey `K2` (R111). -/
def cmacK2 (K : Block) : Block := dbl (cmacK1 K)

/-- The number of blocks of a CMAC message, at least 1 (R112). -/
def cmacBlocks (M : Bytes) : Nat := max 1 ((M.length + 15) / 16)

/-- `Mlast` (R112): the last block with `K1` if it is complete, else padded with 80 00 .. and with `K2`. -/
def cmacLast (K : Block) (M : Bytes) : Block :=
  if 0 < M.length ∧ M.length % 16 = 0 then (blockAt M (cmacBlocks M - 1)).xor (cmacK1 K)
  else
    let r := M.drop (16 * (cmacBlocks M - 1))
    (Block.ofBytes (r ++ [0x80#8] ++ List.replicate (15 - r.length) 0x00#8)).xor (cmacK2 K)

/-- `CMAC(K, M)` (R112): the full 16-byte tag. -/
def cmac (K : Block) (M : Bytes) : Block :=
  aesEnc K (((List.range (cmacBlocks M - 1)).foldl (fun C i => aesEnc K (C.xor (blockAt M i))) Block.zero).xor
    (cmacLast K M))

end Sys2Proof.Machine
end

