-- ==== Sys2Proof/Machine/State.lean ====
section
/-! DEFINITION. The state of one WMBSEC instance (10_state.md R17, R47), what can end a run, and the state after reset
(70_reset_and_hazards.md R156). Plain data: no field is a function. -/

namespace Sys2Proof.Machine

/-- The engine state (R43): idle, or running the latched command word. -/
inductive Eng where
  | idle
  | run (w : Word)
  deriving DecidableEq, Repr

/-- The values `STATUS.ERR` takes (R137). The reserved codes 7 to 15 are never produced, and none of them is a value
of this type (log 10). -/
inductive ErrCode where
  | ok
  | illegal
  | range
  | nokey
  | badmac
  | wrongkey
  | baddigit
  deriving DecidableEq, Repr

/-- Four 32-bit registers of one name, word 0 to word 3: `KCONF0..3`, `KENC0..3`, `KMAC0..3`, `EXPMAC0..3`, `MAC0..3`
(R29, R30, R39, R40). -/
structure Quad where
  w0 : Word
  w1 : Word
  w2 : Word
  w3 : Word
  deriving DecidableEq, Repr

/-- Four registers holding 0. -/
def Quad.zero : Quad := ⟨0, 0, 0, 0⟩

/-- FBUF (R41) as the list of its written bytes: pairs of the index i of `FB[i]` (window offset 0x100+i, R49) and the
byte, indices strictly rising and below 256. An unlisted byte is unwritten and holds no value (R41, R157; log 2). -/
abbrev Memory := List Host.Cell

/-- The widths of a host access (R55). -/
inductive Width where
  | byte
  | half
  | word
  deriving DecidableEq, Repr

/-- What happens to the block from outside, and where the engine's completion falls among it (R16, R69; log 1). Offsets
are byte offsets in the window (R12). The write data is a 32-bit value of which a narrow access carries the low bytes
(R50). `poll` and `chk` are the two host operations of R95 that are not a plain access (log 5). -/
inductive Event where
  /-- A host read of 1, 2 or 4 bytes (R64). -/
  | read (wd : Width) (off : Nat)
  /-- A host write of 1, 2 or 4 bytes (R65). -/
  | write (wd : Width) (off : Nat) (v : Word)
  /-- The completion of the running command falls here: the latency T_OP has passed (R9, R142). -/
  | complete
  /-- `poll`: repeat a 32-bit load of STATUS until BUSY = 0 (R95). -/
  | poll
  /-- `chk REG, MASK, V`: a 32-bit load; the host program stops if (value AND MASK) is not V (R95). -/
  | chk (off : Nat) (mask v : Word)
  /-- The platform asserts the reset input (R155). -/
  | assertReset
  /-- The platform releases the reset input (R155). -/
  | releaseReset
  deriving DecidableEq, Repr

/-- The state of one instance (R17, R47). The first four groups are the spec's; the last is the outside of the block,
the model's own (log 1, log 5, log 7). `ID` is constant (R22) and `BUSY` and `KVC` are computed from `eng` and `kcw`
(R25, R43), so they have no field. -/
structure State where
  /-- Engine state (R43). -/
  eng : Eng
  /-- `CTRL.IRQEN` (R23). -/
  irqen : Bool
  /-- `CTRL.CRCINV` (R23, R24). -/
  crcinv : Bool
  /-- `STATUS.DONE` (R25). -/
  done : Bool
  /-- `STATUS.BERR` (R25, R70). -/
  berr : Bool
  /-- `STATUS.ERR` (R25, R137). -/
  err : ErrCode
  /-- `STATUS.SENT` (R25, R120). -/
  sent : Bool
  /-- `STATUS.MATCH` (R25, R129). -/
  matched : Bool
  /-- `STATUS.KVE` (R25, R31). -/
  kve : Bool
  /-- `STATUS.KVM` (R25, R31). -/
  kvm : Bool
  /-- `STATUS.KCW` (R25, R29): bit j is 1 when `KCONFj` has been written. -/
  kcw : BitVec 4
  /-- `CMD_LAST`, the last launched word, read at `CMD` (R27). -/
  cmdLast : Word
  /-- `RESULT` = `RESULT1 ‖ RESULT0` (R28). -/
  result : BitVec 64
  /-- `KCONF0..3` (R29). -/
  kconf : Quad
  /-- `KENC0..3` (R30). -/
  kenc : Quad
  /-- `KMAC0..3` (R30). -/
  kmac : Quad
  /-- `HDR0` (R33). -/
  hdr0 : Word
  /-- `HDR1` (R33). -/
  hdr1 : Word
  /-- `ELLCS.CC` (R34). -/
  cc : Byte
  /-- `ELLCS.FN` (R34). -/
  fn : BitVec 16
  /-- `ELLSN.SN` (R35). -/
  sn : Word
  /-- `TPLACC.ACC` (R36). -/
  acc : Byte
  /-- `AFLMCL.MCL` (R37). -/
  mcl : Byte
  /-- `AFLMCTR.MCTR` (R38). -/
  mctr : Word
  /-- `EXPMAC0..3` (R39). -/
  expmac : Quad
  /-- `MAC0..3` (R40). -/
  mac : Quad
  /-- FBUF (R41). -/
  fbuf : Memory
  /-- The level output `irq` (R46). -/
  irq : Bool
  /-- What is still to happen, oldest first (log 1). -/
  script : List Event
  /-- The data of the host's last read, none before the first (log 5). -/
  rdata : Option Word
  /-- A `chk` failed and the host program stopped (R95, log 5). -/
  stopped : Bool
  /-- The platform's reset input is asserted (R155, log 7). -/
  rst : Bool
  deriving DecidableEq, Repr

/-- The reset state (R156). The last four fields are the model's own: nothing pending, nothing read, reset released
(DESIGN CHOICE, log 1, log 5, log 7). -/
def State.reset : State where
  eng := .idle
  irqen := false
  crcinv := true
  done := false
  berr := false
  err := .ok
  sent := false
  matched := false
  kve := false
  kvm := false
  kcw := 0#4
  cmdLast := 0x00000000#32
  result := 0#64
  kconf := Quad.zero
  kenc := Quad.zero
  kmac := Quad.zero
  hdr0 := 0#32
  hdr1 := 0#32
  cc := 0#8
  fn := 0#16
  sn := 0#32
  acc := 0#8
  mcl := 0#8
  mctr := 0#32
  expmac := Quad.zero
  mac := Quad.zero
  fbuf := []
  irq := false
  script := []
  rdata := none
  stopped := false
  rst := false

/-- What stops the machine with a fault: the two cases the spec itself tells a model to treat so. -/
inductive Fault where
  /-- A byte of FBUF that nothing has written since reset was read, by a host access or by a command whose span covers
  it (R75 "A model shall treat such a read as a fault (no value)"; U1, U2). Safe: the hardware goes on with an
  unspecified value. -/
  | unwrittenByte
  /-- A host access while the platform asserts reset (R155 "no host access is accepted (the platform must not issue
  any)"; U12). Safe: a correct platform never does it. -/
  | accessInReset
  deriving DecidableEq, Repr

/-- What the model gives no meaning. -/
inductive Refusal where
  /-- An instruction with no meaning yet, by its mnemonic; only the dispatcher answers it. Safe. -/
  | notModelled (mnemonic : String)
  /-- A host access at an offset outside the window, which is not the block's (R49 "the platform decides what they
  are"). Raised by a host access, never by a command. Safe: the model says nothing about another device. -/
  | outsideWindow
  deriving DecidableEq, Repr

end Sys2Proof.Machine
end

