-- ==== Sys2Proof/Machine/Memory.lean ====
section
/-! DEFINITION. FBUF as a list of its written bytes (10_state.md R41, 20_memory.md R49), the reads and writes of one
byte and of a span (R63), and the byte order of registers (R11, R50 to R52). -/

namespace Sys2Proof.Machine

/-- What a byte of FBUF that is not listed reads as: no value (R75, R157; log 2). -/
def Memory.unlisted : Option Byte := none

/-- The canonical form: indices strictly rising, each inside FBUF, and no entry equal to what an unlisted byte reads
as. Equal buffers are then equal lists. -/
abbrev Memory.wf (m : Memory) : Prop :=
  m.Pairwise (fun c d => c.1 < d.1) ∧ ∀ c ∈ m, c.1 < Config.fbufSize ∧ some c.2 ≠ Memory.unlisted

/-- `FB[i]` (R12): its value, or no value while it is unwritten (R41). -/
def Memory.read : Memory → Nat → Option Byte
  | [], _ => Memory.unlisted
  | c :: cs, i => if c.1 = i then some c.2 else Memory.read cs i

/-- The list with the byte at i put in its place. -/
def Memory.insert : Memory → Nat → Byte → Memory
  | [], i, b => [(i, b)]
  | c :: cs, i, b =>
    if i < c.1 then (i, b) :: c :: cs
    else if c.1 = i then (i, b) :: cs
    else c :: Memory.insert cs i b

/-- `FB[i] <- b` (R12, R65 "byte becomes written"). There is no byte past `FB[255]` (R49). -/
def Memory.write (m : Memory) (i : Nat) (b : Byte) : Memory :=
  if i < Config.fbufSize then m.insert i b else m

/-- `FB[off +: n]` as a byte string (R12), none when one of its bytes is unwritten (R75). -/
def Memory.readSpan (m : Memory) (off : Nat) : Nat → Option Bytes
  | 0 => some []
  | n + 1 =>
    match m.read off, Memory.readSpan m (off + 1) n with
    | some b, some bs => some (b :: bs)
    | _, _ => none

/-- `FB[off +: len(S)] <- S` (R12). -/
def Memory.writeSpan : Memory → Nat → Bytes → Memory
  | m, _, [] => m
  | m, off, b :: bs => Memory.writeSpan (m.write off b) (off + 1) bs

/-! ### Byte order -/

/-- `le_4(w)` (R11): the four bytes of a word, bits [7:0] first (R50, R52). -/
def le4 (w : Word) : Bytes := [w.extractLsb' 0 8, w.extractLsb' 8 8, w.extractLsb' 16 8, w.extractLsb' 24 8]

/-- `le_2(v)` (R11): the two bytes of a 16-bit value, bits [7:0] first. -/
def le2 (v : BitVec 16) : Bytes := [v.extractLsb' 0 8, v.extractLsb' 8 8]

/-- The word whose bytes are b0 (bits [7:0]) to b3 (bits [31:24]) (R50). -/
def ofLe4 (b0 b1 b2 b3 : Byte) : Word := b3 ++ b2 ++ b1 ++ b0

/-- The 16-byte string of four registers, `le_4(X0) ‖ le_4(X1) ‖ le_4(X2) ‖ le_4(X3)` (R32, R39, R40). -/
def Quad.bytes (q : Quad) : Bytes := le4 q.w0 ++ (le4 q.w1 ++ (le4 q.w2 ++ le4 q.w3))

/-- The AES block four registers hold: byte `4j+b` is `Xj[8b+7:8b]` (R29, R32). -/
def Quad.toBlock (q : Quad) : Block := Block.ofBytes q.bytes

/-- The word of one column: row 0 in bits [7:0] (R128 "little-endian lanes"). -/
def Col.toWord (a : Col) : Word := ofLe4 a.r0 a.r1 a.r2 a.r3

/-- The four registers that hold a block, the first byte in bits [7:0] of register 0 (R40, R128). -/
def Quad.ofBlock (b : Block) : Quad := ⟨b.c0.toWord, b.c1.toWord, b.c2.toWord, b.c3.toWord⟩

/-- Register j of four. -/
def Quad.get (q : Quad) : Fin 4 → Word
  | 0 => q.w0
  | 1 => q.w1
  | 2 => q.w2
  | 3 => q.w3

/-- Register j of four gets the value v. -/
def Quad.set (q : Quad) (j : Fin 4) (v : Word) : Quad :=
  match j with
  | 0 => { q with w0 := v }
  | 1 => { q with w1 := v }
  | 2 => { q with w2 := v }
  | 3 => { q with w3 := v }

/-- The number of bytes of an access (R55). -/
def Width.bytes : Width → Nat
  | .byte => 1
  | .half => 2
  | .word => 4

/-- The word an access of a few bytes carries, byte k on bits [8k+7:8k] (R50, R54, R64). -/
def wordOfBytes (S : Bytes) : Word := ofLe4 (S.getD 0 0) (S.getD 1 0) (S.getD 2 0) (S.getD 3 0)

/-- The bytes an access of width wd carries of the data v, `v[8k+7:8k]` for byte k (R50, R65). -/
def bytesOfWord (wd : Width) (v : Word) : Bytes := (le4 v).take wd.bytes

end Sys2Proof.Machine
end

