-- ==== Sys2Proof/Machine/Flags.lean ====
section
/-! DEFINITION. The flags: the word `STATUS` reads as (10_state.md R25), the computed bits `BUSY` and `KVC`, the error
codes (60_exceptions.md R137), the interrupt level (R46), the sentinel check (42_cipher.md R120) and the MAC
comparison (43_cmac_kdf.md R129). -/

namespace Sys2Proof.Machine

/-- The 4-bit code of an error (R137). -/
def ErrCode.code : ErrCode → BitVec 4
  | .ok => 0#4
  | .illegal => 1#4
  | .range => 2#4
  | .nokey => 3#4
  | .badmac => 4#4
  | .wrongkey => 5#4
  | .baddigit => 6#4

/-- `STATUS.BUSY` = 1 exactly when `eng` = RUN(w) (R43). -/
def State.busy (s : State) : Bool :=
  match s.eng with
  | .idle => false
  | .run _ => true

/-- `STATUS.KVC` always equals (`KCW` = 0b1111) (R25, R31). -/
def State.kvc (s : State) : Bool := s.kcw == 0b1111#4

/-- The word a read of `STATUS` returns (R25): bits [31:20] 0, `KCW`, 0, `KVM`, `KVE`, `KVC`, 00, `MATCH`, `SENT`,
`ERR`, 0, `BERR`, `DONE`, `BUSY`. -/
def State.statusWord (s : State) : Word :=
  0#12 ++ s.kcw ++ 0#1 ++ BitVec.ofBool s.kvm ++ BitVec.ofBool s.kve ++ BitVec.ofBool s.kvc ++ 0#2 ++
    BitVec.ofBool s.matched ++ BitVec.ofBool s.sent ++ s.err.code ++ 0#1 ++ BitVec.ofBool s.berr ++
    BitVec.ofBool s.done ++ BitVec.ofBool s.busy

/-- The word a read of `CTRL` returns (R23): bits [31:2] 0, `CRCINV`, `IRQEN`. -/
def State.ctrlWord (s : State) : Word := 0#30 ++ BitVec.ofBool s.crcinv ++ BitVec.ofBool s.irqen

/-- `irq` recomputed, `irq = CTRL.IRQEN AND STATUS.DONE` (R46): after every host access and every completion. -/
def State.refreshIrq (s : State) : State := { s with irq := s.irqen && s.done }

/-- Is the sentinel `2F 2F` at `FB[off]` (R120)? -/
def sentinelAt (m : Memory) (off : Nat) : Bool := m.read off == some 0x2F#8 && m.read (off + 1) == some 0x2F#8

/-- `mac_ok(m) = (MAC[0 +: m] = EXPMAC[0 +: m])` (R129). -/
def macOk (mac expmac : Quad) (m : Nat) : Bool := mac.bytes.take m == expmac.bytes.take m

end Sys2Proof.Machine
end

