-- ==== Sys2Proof/Machine/Ops.lean ====
section
/-! DEFINITION. The operations over the state: launching a command (10_state.md R27), ending one (60_exceptions.md R142,
the block's "trap entry") and acknowledging it (R26, R144, the "return"), bus errors (20_memory.md R70), the register
map (10_state.md R21) and the host accesses (20_memory.md R64, R65), and reset (70_reset_and_hazards.md R155 to
R158). -/

namespace Sys2Proof.Machine

/-! ### Launch, completion, acknowledgement -/

/-- Launch (R27): the word is latched, `DONE`, `ERR`, `SENT` and `MATCH` are cleared, the engine runs. -/
def State.launch (s : State) (w : Word) : State :=
  { s with cmdLast := w, done := false, err := .ok, sent := false, matched := false, eng := .run w }

/-- The end of every completion step (R142): the error code is recorded and nothing else (R138), the engine is idle,
`DONE` is set, and `irq` is `IRQEN AND 1`. `complete()` is this with `OK`, `raise E` with E (R12). -/
def State.finish (s : State) (e : ErrCode) : State := { s with err := e, eng := .idle, done := true, irq := s.irqen }

/-- The host's write of v to `STATUS` (R26, the acknowledgement of R144): v[1] clears `DONE`, v[2] clears `BERR`,
every other bit is ignored. -/
def State.ackStatus (s : State) (v : Word) : State :=
  { s with done := s.done && !v.getLsbD 1, berr := s.berr && !v.getLsbD 2 }

/-- `bus_error()` (R70): the access is refused, `BERR` is set and nothing else changes. -/
def State.busError (s : State) : State := { s with berr := true }

/-! ### The register map (R21) -/

/-- The registers of the map (R21). -/
inductive Reg where
  | id
  | ctrl
  | status
  | cmd
  | result0
  | result1
  | kconf (j : Fin 4)
  | kenc (j : Fin 4)
  | kmac (j : Fin 4)
  | hdr0
  | hdr1
  | ellcs
  | ellsn
  | tplacc
  | aflmcl
  | aflmctr
  | expmac (j : Fin 4)
  | mac (j : Fin 4)
  deriving DecidableEq, Repr

/-- The register at a window offset (R21), none at a reserved offset (R42). -/
def regAt : Nat → Option Reg
  | 0x000 => some .id
  | 0x004 => some .ctrl
  | 0x008 => some .status
  | 0x00C => some .cmd
  | 0x010 => some .result0
  | 0x014 => some .result1
  | 0x020 => some (.kconf 0)
  | 0x024 => some (.kconf 1)
  | 0x028 => some (.kconf 2)
  | 0x02C => some (.kconf 3)
  | 0x030 => some (.kenc 0)
  | 0x034 => some (.kenc 1)
  | 0x038 => some (.kenc 2)
  | 0x03C => some (.kenc 3)
  | 0x040 => some (.kmac 0)
  | 0x044 => some (.kmac 1)
  | 0x048 => some (.kmac 2)
  | 0x04C => some (.kmac 3)
  | 0x050 => some .hdr0
  | 0x054 => some .hdr1
  | 0x058 => some .ellcs
  | 0x05C => some .ellsn
  | 0x060 => some .tplacc
  | 0x064 => some .aflmcl
  | 0x068 => some .aflmctr
  | 0x070 => some (.expmac 0)
  | 0x074 => some (.expmac 1)
  | 0x078 => some (.expmac 2)
  | 0x07C => some (.expmac 3)
  | 0x080 => some (.mac 0)
  | 0x084 => some (.mac 1)
  | 0x088 => some (.mac 2)
  | 0x08C => some (.mac 3)
  | _ => none

/-- The value a register reads as; reserved bits read 0 (R22 to R40, R42). -/
def State.regValue (s : State) : Reg → Word
  | .id => Config.idValue
  | .ctrl => s.ctrlWord
  | .status => s.statusWord
  | .cmd => s.cmdLast
  | .result0 => s.result.extractLsb' 0 32
  | .result1 => s.result.extractLsb' 32 32
  | .kconf j => s.kconf.get j
  | .kenc j => s.kenc.get j
  | .kmac j => s.kmac.get j
  | .hdr0 => s.hdr0
  | .hdr1 => s.hdr1
  | .ellcs => s.fn ++ 0#8 ++ s.cc
  | .ellsn => s.sn
  | .tplacc => 0#24 ++ s.acc
  | .aflmcl => 0#24 ++ s.mcl
  | .aflmctr => s.mctr
  | .expmac j => s.expmac.get j
  | .mac j => s.mac.get j

/-- The value at an offset of the register area: a reserved offset reads 0 (R42, R59). -/
def State.regRead (s : State) (off : Nat) : Word :=
  match regAt off with
  | some r => s.regValue r
  | none => 0#32

/-- Both derived keys zeroed and invalid (R29, R136). -/
def State.dropDerivedKeys (s : State) : State := { s with kenc := .zero, kmac := .zero, kve := false, kvm := false }

/-- A write of `KCONFj` (R29): the word is stored, `KCW[j]` is set, the derived keys are zeroed and invalid. -/
def State.writeKconf (s : State) (j : Fin 4) (v : Word) : State :=
  { s.dropDerivedKeys with kconf := s.kconf.set j v, kcw := s.kcw ||| (1#4 <<< j.val) }

/-- The write rule of each register (R22 to R40): a read-only register and a reserved bit ignore it (R42). -/
def State.regStore (s : State) (r : Reg) (v : Word) : State :=
  match r with
  | .id => s
  | .ctrl => { s with irqen := v.getLsbD 0, crcinv := v.getLsbD 1 }
  | .status => s.ackStatus v
  | .cmd => s.launch v
  | .result0 => s
  | .result1 => s
  | .kconf j => s.writeKconf j v
  | .kenc _ => s
  | .kmac _ => s
  | .hdr0 => { s with hdr0 := v }
  | .hdr1 => { s with hdr1 := v }
  | .ellcs => { s with cc := v.extractLsb' 0 8, fn := v.extractLsb' 16 16 }
  | .ellsn => { s with sn := v }
  | .tplacc => { s with acc := v.extractLsb' 0 8 }
  | .aflmcl => { s with mcl := v.extractLsb' 0 8 }
  | .aflmctr => { s with mctr := v }
  | .expmac j => { s with expmac := s.expmac.set j v }
  | .mac _ => s

/-- A write at an offset of the register area: a reserved offset ignores it (R42, R59). -/
def State.regWrite (s : State) (off : Nat) (v : Word) : State :=
  match regAt off with
  | some r => s.regStore r v
  | none => s

/-! ### Host accesses (R64 to R66) -/

/-- The offsets that may be read while `BUSY` = 1: `ID`, `STATUS` and `CMD` (R64, R66). -/
def busyReadable (off : Nat) : Bool := off == 0x000 || off == 0x008 || off == 0x00C

/-- Is a read of width wd at off a bus error (R64)? The tests in the order of the rule. -/
def readRefused (s : State) (wd : Width) (off : Nat) : Bool :=
  if off % wd.bytes ≠ 0 then true
  else if off < Config.fbufBase then wd != .word || (s.busy && !busyReadable off)
  else s.busy

/-- Is a write of width wd at off a bus error (R65)? The tests in the order of the rule. -/
def writeRefused (s : State) (wd : Width) (off : Nat) : Bool :=
  if off % wd.bytes ≠ 0 then true
  else if off < Config.fbufBase then wd != .word || (s.busy && off != 0x008)
  else s.busy

/-- `MemRead(off, n)` (R64): the state after it and the value it returns. -/
def memRead (s : State) (wd : Width) (off : Nat) : Host.Outcome (State × Word) Fault Refusal :=
  if Config.windowSize ≤ off then .refused .outsideWindow
  else if readRefused s wd off then .next (s.busError, 0#32)
  else if off < Config.fbufBase then .next (s, s.regRead off)
  else
    match s.fbuf.readSpan (off - Config.fbufBase) wd.bytes with
    | some S => .next (s, wordOfBytes S)
    | none => .fault .unwrittenByte

/-- `MemWrite(off, n, v)` (R65). -/
def memWrite (s : State) (wd : Width) (off : Nat) (v : Word) : Host.Outcome State Fault Refusal :=
  if Config.windowSize ≤ off then .refused .outsideWindow
  else if writeRefused s wd off then .next s.busError
  else if off < Config.fbufBase then .next (s.regWrite off v)
  else .next { s with fbuf := s.fbuf.writeSpan (off - Config.fbufBase) (bytesOfWord wd v) }

/-- A host read: `MemRead`, its data kept as the last read's, `irq` recomputed (R46, R64). -/
def hostRead (s : State) (wd : Width) (off : Nat) : Host.Outcome State Fault Refusal :=
  match memRead s wd off with
  | .next (s', v) => .next { s'.refreshIrq with rdata := some v }
  | .fault e => .fault e
  | .refused e => .refused e

/-- A host write: `MemWrite`, `irq` recomputed (R46, R65). -/
def hostWrite (s : State) (wd : Width) (off : Nat) (v : Word) : Host.Outcome State Fault Refusal :=
  match memWrite s wd off v with
  | .next s' => .next s'.refreshIrq
  | .fault e => .fault e
  | .refused e => .refused e

/-- Is the event an operation of the host's program? The completion and the reset input are not. -/
def Event.isHostOperation : Event → Bool
  | .read _ _ => true
  | .write _ _ _ => true
  | .poll => true
  | .chk _ _ _ => true
  | .complete => false
  | .assertReset => false
  | .releaseReset => false

/-- `chk REG, MASK, V` (R95): a 32-bit load, and the host program stops unless (value AND MASK) = V: what is left of it
never happens, while the completion and the reset input go on. -/
def hostCheck (s : State) (off : Nat) (mask v : Word) : Host.Outcome State Fault Refusal :=
  match memRead s .word off with
  | .next (s', d) =>
    if d &&& mask = v then .next { s'.refreshIrq with rdata := some d }
    else .next { s'.refreshIrq with rdata := some d, stopped := true,
                                    script := s'.script.filter fun e => !e.isHostOperation }
  | .fault e => .fault e
  | .refused e => .refused e

/-! ### Reset (R155 to R158) -/

/-- The reset input asserted: a running command is abandoned without a completion (R158) and everything is at its reset
value (R156); only the outside of the block goes on. -/
def State.enterReset (s : State) : State := { State.reset with script := s.script, stopped := s.stopped, rst := true }

/-- The reset input released: "when it is released the state is the reset state" (R155). -/
def State.leaveReset (s : State) : State :=
  if s.rst then { State.reset with script := s.script, stopped := s.stopped } else s

end Sys2Proof.Machine
end

