-- ==== Sys2Proof/Machine/Operands.lean ====
section
/-! DEFINITION. The operands of the commands: the key `KSEL` names (10_state.md R32), the FBUF span (30_encoding.md R94),
the pre-checks (60_exceptions.md R139), and the byte strings built from registers: `HDR` (R33), the CTR counter block
(42_cipher.md R116), the mode-5 IV (R121), the CMAC prefix (43_cmac_kdf.md R127) and the KDF input (R131). -/

namespace Sys2Proof.Machine

/-- `key(KSEL)` (R32): the 16 bytes of the chosen registers, as an AES key. -/
def State.keyOf (s : State) : KeySel → Block
  | .kconf => s.kconf.toBlock
  | .kenc => s.kenc.toBlock
  | .kmac => s.kmac.toBlock

/-- The valid bit of the chosen key (R31, R32). -/
def State.keyValid (s : State) : KeySel → Bool
  | .kconf => s.kvc
  | .kenc => s.kve
  | .kmac => s.kvm

/-- The span of a command, offset and length in bytes; `NOP`, `KDF` and `KCLR` have none (R94). -/
def spanOf : Instr → Option (Nat × Nat)
  | .nop => none
  | .crc16 off len => some (off, len)
  | .bcd off wid => some (off, wid)
  | .ctr _ off len => some (off, len)
  | .cbciv _ off len => some (off, len)
  | .cbcz _ off nblk => some (off, 16 * nblk)
  | .cmac _ off len _ => some (off, len)
  | .cmacv _ off len _ _ => some (off, len)
  | .kdf _ => none
  | .kclr _ => none

/-- The key a command uses: `key(KSEL)`, and `KCONF` for `KDF` (R139). -/
def keyUsed : Instr → Option KeySel
  | .nop => none
  | .crc16 _ _ => none
  | .bcd _ _ => none
  | .ctr k _ _ => some k
  | .cbciv k _ _ => some k
  | .cbcz k _ _ => some k
  | .cmac k _ _ _ => some k
  | .cmacv k _ _ _ _ => some k
  | .kdf _ => some .kconf
  | .kclr _ => none

/-- Does the command's span leave FBUF, `OFF + S > 256` (R94)? -/
def spanLeaves (i : Instr) : Bool :=
  match spanOf i with
  | some (off, n) => decide (Config.fbufSize < off + n)
  | none => false

/-- Does the command use a key whose valid bit is 0 (R139)? -/
def keyMissing (s : State) (i : Instr) : Bool :=
  match keyUsed i with
  | some k => !s.keyValid k
  | none => false

/-- The pre-checks (R139), stopping at the first that applies. Words the decoder rejects never come here (`Step.lean`
completes them with `ILLEGAL`); a command that is not well formed is `ILLEGAL` too (log 8). -/
def precheck (s : State) (i : Instr) : Option ErrCode :=
  if i.wf = false then some .illegal
  else if spanLeaves i then some .range
  else if keyMissing s i then some .nokey
  else none

/-- A command's completion: the pre-checks, then its own pseudocode. A command that fails a pre-check writes nothing
but `STATUS` (R139). -/
def checked (s : State) (i : Instr) (body : Host.Outcome State Fault Refusal) : Host.Outcome State Fault Refusal :=
  match precheck s i with
  | some e => .next (s.finish e)
  | none => body

/-- The rest of a command's pseudocode on the bytes `FB[off +: n]` of its span (R63). An unwritten byte among them is
the fault R75 asks for. -/
def onSpan (s : State) (off n : Nat) (body : Bytes → Host.Outcome State Fault Refusal) :
    Host.Outcome State Fault Refusal :=
  match s.fbuf.readSpan off n with
  | some S => body S
  | none => .fault .unwrittenByte

/-- `HDR = le_4(HDR0) ‖ le_4(HDR1)` (R33). -/
def State.hdr (s : State) : Bytes := le4 s.hdr0 ++ le4 s.hdr1

/-- `ctr_block(i) = HDR ‖ CC ‖ le_4(SN) ‖ le_2(FN) ‖ byte(i)` (R116). -/
def State.ctrBytes (s : State) (i : Nat) : Bytes :=
  s.hdr ++ ([s.cc] ++ (le4 s.sn ++ (le2 s.fn ++ [BitVec.ofNat 8 i])))

/-- The counter block as an AES block. -/
def State.ctrBlock (s : State) (i : Nat) : Block := Block.ofBytes (s.ctrBytes i)

/-- `IV5 = HDR ‖ rep(ACC, 8)` (R121). -/
def State.iv5 (s : State) : Block := Block.ofBytes (s.hdr ++ List.replicate 8 s.acc)

/-- `IV7 = rep(00, 16)` (R123). -/
def iv7 : Block := Block.zero

/-- The CMAC message (R127): the prefix `MCL ‖ le_4(MCTR)` when `PFX` = 1, then the span. -/
def State.cmacMsg (s : State) (pfx : Bool) (S : Bytes) : Bytes := (if pfx then s.mcl :: le4 s.mctr else []) ++ S

/-- The byte `zext_8(DC)` (R87). -/
def dcByte : DerivedKey → Byte
  | .kenc => 0x00#8
  | .kmac => 0x01#8

/-- `DC ‖ le_4(counter) ‖ id ‖ rep(07, 7)`, the KDF input of a counter and an id (R131). -/
def kdfInput (dc : DerivedKey) (ctr : Word) (devId : Bytes) : Bytes :=
  dcByte dc :: (le4 ctr ++ (devId ++ List.replicate 7 0x07#8))

/-- `kdf_in(DC) = zext_8(DC) ‖ le_4(MCTR) ‖ HDR[2 +: 4] ‖ rep(07, 7)` (R131). -/
def State.kdfIn (s : State) (dc : DerivedKey) : Bytes := kdfInput dc s.mctr ((s.hdr.drop 2).take 4)

end Sys2Proof.Machine
end

