-- ==== Sys2Proof/Machine/Auth.lean ====
section
/-! DEFINITION. Authentication and key derivation: `CMAC`, `CMACV` and `KDF` (43_cmac_kdf.md). -/

namespace Sys2Proof.Machine

/-- The four words `MAC0..3` of the tag of a command's message (R128). -/
def State.tag (s : State) (key : KeySel) (pfx : Bool) (S : Bytes) : Quad :=
  Quad.ofBlock (cmac (s.keyOf key) (s.cmacMsg pfx S))

/-- `CMAC` (R128). -/
def execCmac (key : KeySel) (off len : Nat) (pfx : Bool) (s : State) : Host.Outcome State Fault Refusal :=
  checked s (.cmac key off len pfx) <| onSpan s off len fun S =>
    .next ({ s with mac := s.tag key pfx S }.finish .ok)

/-- The end of a verification of m bytes, after `MAC` is written (R130): `MATCH` is the comparison, and a mismatch ends
`BADMAC`. -/
def cmacvFinish (s : State) (m : Nat) : State :=
  if macOk s.mac s.expmac m then { s with matched := true }.finish .ok
  else { s with matched := false }.finish .badmac

/-- `CMACV` (R130). -/
def execCmacv (key : KeySel) (off len maclen : Nat) (pfx : Bool) (s : State) : Host.Outcome State Fault Refusal :=
  checked s (.cmacv key off len maclen pfx) <| onSpan s off len fun S =>
    .next (cmacvFinish { s with mac := s.tag key pfx S } maclen)

/-- The four words of `CMAC(KCONF, kdf_in(DC))` (R132). -/
def State.derived (s : State) (dc : DerivedKey) : Quad := Quad.ofBlock (cmac s.kconf.toBlock (s.kdfIn dc))

/-- `KDF` (R132): the derived key and its valid bit. `MAC` is not written. -/
def execKdf (dc : DerivedKey) (s : State) : Host.Outcome State Fault Refusal :=
  checked s (.kdf dc) <|
    match dc with
    | .kenc => .next ({ s with kenc := s.derived .kenc, kve := true }.finish .ok)
    | .kmac => .next ({ s with kmac := s.derived .kmac, kvm := true }.finish .ok)

end Sys2Proof.Machine
end

