-- ==== Sys2Proof/Machine/Cipher.lean ====
section
/-! DEFINITION. The cipher commands `CTR`, `CBCIV` and `CBCZ` (42_cipher.md). -/

namespace Sys2Proof.Machine

/-- The keystream for n bytes, block i the encryption of `ctr_block(i)` (R117). -/
def keystream (K : Block) (ctr : Nat → Block) (n : Nat) : Bytes :=
  (List.range ((n + 15) / 16)).flatMap fun i => (aesEnc K (ctr i)).bytes

/-- `ctr_xcrypt(K, S)` (R117): each byte of S exclusive-or its byte of the keystream; what a last partial block leaves
of its keystream block is discarded. -/
def ctrXcrypt (K : Block) (ctr : Nat → Block) (S : Bytes) : Bytes :=
  S.zipWith (· ^^^ ·) (keystream K ctr S.length)

/-- `cbc_decrypt(K, IV, S, n)` (R119): the first n blocks of S, each decrypted and chained on the ciphertext block
before it (`prev`, at first the IV); the rest of S is unchanged. S is the ciphertext as it stood before the command. -/
def cbcDecrypt (K prev : Block) (S : Bytes) : Nat → Bytes
  | 0 => S
  | n + 1 => ((aesDec K (blockAt S 0)).xor prev).bytes ++ cbcDecrypt K (blockAt S 0) (S.drop 16) n

/-- The end of a CBC decryption of n blocks at off, after the span is written (R120): no block, no check; else `SENT`
is the sentinel check on the decrypted bytes, and without the sentinel the command ends `WRONGKEY`. -/
def cbcFinish (s : State) (off n : Nat) : State :=
  if n = 0 then { s with sent := false }.finish .ok
  else if sentinelAt s.fbuf off then { s with sent := true }.finish .ok
  else { s with sent := false }.finish .wrongkey

/-- `CTR` (R118). -/
def execCtr (key : KeySel) (off len : Nat) (s : State) : Host.Outcome State Fault Refusal :=
  checked s (.ctr key off len) <| onSpan s off len fun S =>
    .next ({ s with fbuf := s.fbuf.writeSpan off (ctrXcrypt (s.keyOf key) s.ctrBlock S) }.finish .ok)

/-- `CBCIV` (R122): `floor(LEN/16)` blocks with the mode-5 IV. -/
def execCbciv (key : KeySel) (off len : Nat) (s : State) : Host.Outcome State Fault Refusal :=
  checked s (.cbciv key off len) <| onSpan s off len fun S =>
    .next (cbcFinish { s with fbuf := s.fbuf.writeSpan off (cbcDecrypt (s.keyOf key) s.iv5 S (len / 16)) }
      off (len / 16))

/-- `CBCZ` (R124): `NBLK` blocks with a zero IV. -/
def execCbcz (key : KeySel) (off nblk : Nat) (s : State) : Host.Outcome State Fault Refusal :=
  checked s (.cbcz key off nblk) <| onSpan s off (16 * nblk) fun S =>
    .next (cbcFinish { s with fbuf := s.fbuf.writeSpan off (cbcDecrypt (s.keyOf key) iv7 S nblk) } off nblk)

end Sys2Proof.Machine
end

