-- ==== Sys2Proof/Machine/Codec.lean ====
section
/-! DEFINITION. The codec commands `CRC16` and `BCD` (40_codec.md). -/

namespace Sys2Proof.Machine

/-- One bit of the CRC register update (R97). -/
def crc16Shift (c : BitVec 16) : BitVec 16 :=
  if c.getLsbD 15 then (c <<< 1) ^^^ Config.crcPoly else c <<< 1

/-- n bits of the CRC register update (R97 "repeat 8 times"). -/
def crc16Shifts : Nat → BitVec 16 → BitVec 16
  | 0, c => c
  | n + 1, c => crc16Shifts n (crc16Shift c)

/-- `crc16_byte(c, b)` (R97): most significant bit first. -/
def crc16Byte (c : BitVec 16) (b : Byte) : BitVec 16 := crc16Shifts 8 (c ^^^ (b.zeroExtend 16 <<< 8))

/-- `crc16(S, XOROUT)` (R98). -/
def crc16 (S : Bytes) (xorout : BitVec 16) : BitVec 16 := S.foldl crc16Byte Config.crcInit ^^^ xorout

/-- `XOROUT`: 0xFFFF when `CTRL.CRCINV` = 1, else 0x0000 (R24, R98; 90_conflicts.md C1). -/
def State.xorout (s : State) : BitVec 16 := if s.crcinv then 0xFFFF#16 else 0x0000#16

/-- `CRC16` (R99). -/
def execCrc16 (off len : Nat) (s : State) : Host.Outcome State Fault Refusal :=
  checked s (.crc16 off len) <| onSpan s off len fun S =>
    .next ({ s with result := (crc16 S s.xorout).zeroExtend 64 }.finish .ok)

/-- The digits of a BCD byte string, `d[2i]` the low and `d[2i+1]` the high nibble of byte i (R101). -/
def bcdDigits : Bytes → List Nat
  | [] => []
  | b :: bs => b.toNat % 16 :: b.toNat / 16 :: bcdDigits bs

/-- The sum of `d[k] · 10^k` (R101). -/
def decimalValue : List Nat → Nat
  | [] => 0
  | d :: ds => d + 10 * decimalValue ds

/-- The magnitude of a digit string, none when some digit is above 9 (R101). -/
def bcdMagnitude (ds : List Nat) : Option Nat := if ds.all (· ≤ 9) then some (decimalValue ds) else none

/-- `bcd_value(B)` (R101), none for BADDIGIT: a top nibble 0xF is the sign and counts as the digit 0. -/
def bcdValue (B : Bytes) : Option Int :=
  let ds := bcdDigits B
  if ds.getLast? = some 0xF then (bcdMagnitude (ds.dropLast ++ [0])).map fun m : Nat => -(m : Int)
  else (bcdMagnitude ds).map fun m : Nat => (m : Int)

/-- `BCD` (R102). -/
def execBcd (off wid : Nat) (s : State) : Host.Outcome State Fault Refusal :=
  checked s (.bcd off wid) <| onSpan s off wid fun S =>
    match bcdValue S with
    | some r => .next ({ s with result := BitVec.ofInt 64 r }.finish .ok)
    | none => .next (s.finish .baddigit)

end Sys2Proof.Machine
end

