-- ==== Sys2Proof/Machine/Control.lean ====
section
/-! DEFINITION. The control commands `NOP` and `KCLR` (44_control.md). -/

namespace Sys2Proof.Machine

/-- `NOP` (R135): it only completes. -/
def execNop (s : State) : Host.Outcome State Fault Refusal := checked s .nop (.next (s.finish .ok))

/-- `KCLR` (R136): the derived keys are zeroed and invalid, with `ALL` = 1 also `KCONF` and `KCW`. -/
def execKclr (all : Bool) (s : State) : Host.Outcome State Fault Refusal :=
  checked s (.kclr all) <|
    if all then .next ({ s.dropDerivedKeys with kconf := .zero, kcw := 0b0000#4 }.finish .ok)
    else .next (s.dropDerivedKeys.finish .ok)

end Sys2Proof.Machine
end

