-- ==== Sys2Proof/Machine/Dispatch.lean ====
section
/-! DEFINITION. The completion of each command (60_exceptions.md R142), one arm per constructor. -/

namespace Sys2Proof.Machine

def exec (i : Instr) (s : State) : Host.Outcome State Fault Refusal :=
  match i with
  | .nop => Sys2Proof.Machine.execNop s
  | .crc16 off len => Sys2Proof.Machine.execCrc16 off len s
  | .bcd off wid => Sys2Proof.Machine.execBcd off wid s
  | .ctr key off len => Sys2Proof.Machine.execCtr key off len s
  | .cbciv key off len => Sys2Proof.Machine.execCbciv key off len s
  | .cbcz key off nblk => Sys2Proof.Machine.execCbcz key off nblk s
  | .cmac key off len pfx => Sys2Proof.Machine.execCmac key off len pfx s
  | .cmacv key off len maclen pfx => Sys2Proof.Machine.execCmacv key off len maclen pfx s
  | .kdf dc => Sys2Proof.Machine.execKdf dc s
  | .kclr all => Sys2Proof.Machine.execKclr all s

end Sys2Proof.Machine
end

