-- ==== Sys2Proof/Machine/Step.lean ====
section
/-! DEFINITION. One step of the block and its surroundings. The order of events is the one total order of R69: the step
takes the oldest pending event of `script`; a completion is an event of its own, so it falls between host accesses and
never inside one (20_memory.md R60; log 1). -/

namespace Sys2Proof.Machine

/-- The completion step of the latched word (R142): `decode(w)`, and the command's completion or `ILLEGAL`. -/
def completion (w : Word) (s : State) : Host.Outcome State Fault Refusal :=
  match decode w with
  | .ok i => exec i s
  | .error _ => .next (s.finish .illegal)

/-- The engine's turn: the completion when a command runs, nothing when the engine is idle (R142 "enabled exactly when
eng = RUN(w)"). -/
def engineStep (s : State) : Host.Outcome State Fault Refusal :=
  match s.eng with
  | .run w => completion w s
  | .idle => .next s

/-- One event, `s` being the state with the event taken off its script. A host access while reset is asserted is the
fault of U12 (R155). A `poll` waits for the completion and then loads STATUS (R95; log 5). -/
def serve (e : Event) (s : State) : Host.Outcome State Fault Refusal :=
  match e with
  | .complete => engineStep s
  | .assertReset => .next s.enterReset
  | .releaseReset => .next s.leaveReset
  | .read wd off => if s.rst then .fault .accessInReset else hostRead s wd off
  | .write wd off v => if s.rst then .fault .accessInReset else hostWrite s wd off v
  | .chk off mask v => if s.rst then .fault .accessInReset else hostCheck s off mask v
  | .poll =>
    if s.rst then .fault .accessInReset
    else if s.busy then engineStep { s with script := .poll :: s.script }
    else hostRead s .word 0x008

/-- One step: the oldest pending event, and the engine's turn when nothing is pending. -/
def step (s : State) : Host.Outcome State Fault Refusal :=
  match s.script with
  | [] => engineStep s
  | e :: rest => serve e { s with script := rest }

/-- The state in which the table word has just been launched and the next step is its completion (log 3): all that the
launch of R27 does, reset released, and the completion the next event. -/
def State.withFetchWord (s : State) (nbits w : Nat) : State :=
  { s.launch (tableWord nbits w) with script := .complete :: s.script, rst := false }

end Sys2Proof.Machine
end

