-- ==== Sys2Proof/Machine/Platform.lean ====
section
/-! DEFINITION. The platform around the block (00_scope.md R9): `N_INST` independent instances, each with its own window
at a base address, its own state and its own `irq` (60_exceptions.md R152). `BASE`, `IRQ_LINE` and `N_INST` are data
here, so a statement for every platform is a statement for every value of them (log 12). -/

namespace Sys2Proof.Machine

/-- One instance: its `BASE`, the platform interrupt input its `irq` drives (`IRQ_LINE`, R9), and its state. -/
structure BlockInstance where
  base : Nat
  irqLine : Nat
  state : State
  deriving DecidableEq, Repr

/-- The instances of a platform; `N_INST` is their number (R9). -/
abbrev Platform := List BlockInstance

/-- At least one instance, every base 512-byte aligned (R9), and no two windows at the same base, so no two overlap. -/
abbrev Platform.wf (p : Platform) : Prop :=
  1 ≤ p.length ∧ (∀ x ∈ p, x.base % Config.windowSize = 0) ∧ p.Pairwise fun x y => x.base ≠ y.base

/-- Does an instance's window hold a platform address (R48)? -/
def BlockInstance.holds (x : BlockInstance) (addr : Nat) : Bool :=
  decide (x.base ≤ addr) && decide (addr < x.base + Config.windowSize)

/-- What the host does at a platform address: a read, or a write of a value. -/
inductive HostAccess where
  | read (wd : Width)
  | write (wd : Width) (v : Word)
  deriving DecidableEq, Repr

/-- The event an access at a window offset is. -/
def HostAccess.event (a : HostAccess) (off : Nat) : Event :=
  match a with
  | .read wd => .read wd off
  | .write wd v => .write wd off v

/-- An access at a platform address, posted to the instance whose window holds the address, at the byte offset from its
base (R48); an address in no window is not a block's (R49). -/
def Platform.post (p : Platform) (addr : Nat) (a : HostAccess) : Platform :=
  p.map fun x =>
    if x.holds addr then { x with state := { x.state with script := x.state.script ++ [a.event (addr - x.base)] } }
    else x

/-- Replace the state of instance k. -/
def Platform.setState : Platform → Nat → State → Platform
  | [], _, _ => []
  | x :: xs, 0, s => { x with state := s } :: xs
  | x :: xs, k + 1, s => x :: Platform.setState xs k s

/-- A step of instance k; the others do not move (R152 "sharing nothing"). A platform without instance k does
nothing. -/
def Platform.step (p : Platform) (k : Nat) : Host.Outcome Platform Fault Refusal :=
  match p[k]? with
  | none => .next p
  | some x =>
    match Sys2Proof.Machine.step x.state with
    | .next s => .next (p.setState k s)
    | .fault e => .fault e
    | .refused e => .refused e

/-- The level a platform interrupt input gets from an instance wired to it (R9 `IRQ_LINE`, R46). How several sources on
one input combine, and how it reaches a processor, is the platform's (R145). -/
def BlockInstance.drives (x : BlockInstance) (line : Nat) : Bool := x.irqLine == line && x.state.irq

end Sys2Proof.Machine
end

