-- ==== Sys2Proof/Safety.lean ====
section
/-! DEFINITION. The terms the statements use: what a span of FBUF holds, what a step leaves unchanged, and the
invariants of the block. -/

namespace Sys2Proof.Machine

/-- `FB[off +: len(S)]` is written and holds the bytes S (R12, R41), said one byte at a time. -/
def Memory.Holds (m : Memory) (off : Nat) (S : Bytes) : Prop := ∀ k : Fin S.length, m.read (off + k) = some S[k]

/-- Every byte of FBUF reads as before (an unwritten one stays unwritten). -/
def FbufKept (s t : State) : Prop := ∀ a, t.fbuf.read a = s.fbuf.read a

/-- Every byte of FBUF outside `FB[off +: n]` reads as before. -/
def FbufKeptOutside (s t : State) (off n : Nat) : Prop :=
  ∀ a, a < off ∨ off + n ≤ a → t.fbuf.read a = s.fbuf.read a

/-- The registers only the host writes (R19) are unchanged: `CTRL`, `CMD_LAST`, the header registers, `EXPMAC`, and
`BERR`, the one field of `STATUS` the engine does not write. -/
def HostRegsKept (s t : State) : Prop :=
  t.irqen = s.irqen ∧ t.crcinv = s.crcinv ∧ t.cmdLast = s.cmdLast ∧ t.berr = s.berr ∧ t.hdr0 = s.hdr0 ∧
    t.hdr1 = s.hdr1 ∧ t.cc = s.cc ∧ t.fn = s.fn ∧ t.sn = s.sn ∧ t.acc = s.acc ∧ t.mcl = s.mcl ∧ t.mctr = s.mctr ∧
    t.expmac = s.expmac

/-- The key registers and their valid bits are unchanged. -/
def KeysKept (s t : State) : Prop :=
  t.kconf = s.kconf ∧ t.kcw = s.kcw ∧ t.kenc = s.kenc ∧ t.kmac = s.kmac ∧ t.kve = s.kve ∧ t.kvm = s.kvm

/-- What is outside the block is unchanged (the model's own fields, log 1, log 5, log 7). -/
def OutsideKept (s t : State) : Prop :=
  t.script = s.script ∧ t.rdata = s.rdata ∧ t.stopped = s.stopped ∧ t.rst = s.rst

/-- The command has ended with code e (R142): engine idle, `DONE` set, `ERR` = e, `irq` the level `IRQEN AND 1`. -/
def EndedWith (t : State) (e : ErrCode) : Prop := t.eng = .idle ∧ t.done = true ∧ t.err = e ∧ t.irq = t.irqen

/-- `irq = CTRL.IRQEN AND STATUS.DONE` (R46). -/
def State.irqLevel (s : State) : Prop := s.irq = (s.irqen && s.done)

/-- While a command runs, the flags are as the launch left them (R27, R45): `DONE`, `SENT`, `MATCH` 0, `ERR` = OK, and
`CMD_LAST` is the running word. -/
def State.runClean (s : State) : Prop :=
  ∀ w, s.eng = .run w → s.done = false ∧ s.err = .ok ∧ s.sent = false ∧ s.matched = false ∧ s.cmdLast = w

/-- A derived key that is not valid reads 0 (R29, R30, R136). -/
def State.invalidZero (s : State) : Prop := (s.kve = false → s.kenc = .zero) ∧ (s.kvm = false → s.kmac = .zero)

/-- A valid derived key was derived from the confidentiality key that stands in `KCONF` now, which is valid (R29, R132;
D13 "derived keys must not outlive the key they came from"). -/
def State.derivedCurrent (s : State) : Prop :=
  (s.kve = true → s.kvc = true ∧ ∃ ctr devId,
    s.kenc = Quad.ofBlock (cmac s.kconf.toBlock (kdfInput .kenc ctr devId)) ∧ devId.length = 4) ∧
  (s.kvm = true → s.kvc = true ∧ ∃ ctr devId,
    s.kmac = Quad.ofBlock (cmac s.kconf.toBlock (kdfInput .kmac ctr devId)) ∧ devId.length = 4)

/-- The flags of the last command agree (R120, R130, R140): `SENT` and `MATCH` only with `ERR` = OK, never both. -/
def State.flagsAgree (s : State) : Prop :=
  (s.sent = true → s.err = .ok) ∧ (s.matched = true → s.err = .ok) ∧ ¬ (s.sent = true ∧ s.matched = true)

/-- While reset is asserted no command runs (R158). -/
def State.resetIdle (s : State) : Prop := s.rst = true → s.eng = .idle

/-- The invariant of the block: what every reachable state satisfies. -/
structure State.Inv (s : State) : Prop where
  canonical : s.fbuf.wf
  irqLevel : s.irqLevel
  runClean : s.runClean
  invalidZero : s.invalidZero
  derivedCurrent : s.derivedCurrent
  flagsAgree : s.flagsAgree
  resetIdle : s.resetIdle

/-! ### Terms of the spec that no command computes -/

/-- The words R77 and R91 call legal, field by field in the layout of R77: bits [31:29] are 0, `OPC` is one of the ten
opcodes, every bit its format marks 0 is 0, and no field holds a reserved value. -/
def LegalWord (w : Word) : Bool :=
  field w 29 3 == 0 &&
    match field w 0 6 with
    | 0x00 => field w 6 23 == 0
    | 0x01 => field w 6 2 == 0 && field w 25 4 == 0
    | 0x02 => field w 6 2 == 0 && field w 19 10 == 0 && !(field w 16 3 == 0 || field w 16 3 == 5 || field w 16 3 == 7)
    | 0x10 => field w 6 2 != 3 && field w 25 4 == 0
    | 0x11 => field w 6 2 != 3 && field w 25 4 == 0
    | 0x12 => field w 6 2 != 3 && field w 20 9 == 0
    | 0x20 => field w 6 2 != 3 && field w 25 3 == 0
    | 0x21 => field w 6 2 != 3 && !(field w 25 3 == 5 || field w 25 3 == 6 || field w 25 3 == 7)
    | 0x30 => field w 6 2 == 0 && field w 9 2 == 1 && field w 11 18 == 0
    | 0x31 => field w 6 2 == 0 && field w 9 20 == 0
    | _ => false

/-- The reserved bits of the register at an offset (R23, R25, R34, R36, R37); every other register has none. -/
def reservedBits : Nat → Word
  | 0x004 => 0xFFFFFFFC#32
  | 0x008 => 0xFFF08C08#32
  | 0x058 => 0x0000FF00#32
  | 0x060 => 0xFFFFFF00#32
  | 0x064 => 0xFFFFFF00#32
  | _ => 0#32

/-- CBC encryption of the first n blocks of S, performed outside the block (R125, R126): each block exclusive-or the
ciphertext block before it (`prev`, at first the IV), encrypted. -/
def cbcEncrypt (K prev : Block) (S : Bytes) : Nat → Bytes
  | 0 => S
  | n + 1 =>
    let C := aesEnc K ((blockAt S 0).xor prev)
    C.bytes ++ cbcEncrypt K C (S.drop 16) n

/-- Block i of the plaintext CBC decryption of S gives (R119): the block decrypted, exclusive-or the ciphertext block
before it, or the IV. -/
def cbcPlain (K iv : Block) (S : Bytes) (i : Nat) : Block :=
  (aesDec K (blockAt S i)).xor (if i = 0 then iv else blockAt S (i - 1))

/-- The bytes of a BCD field whose byte i holds the low digit `(ds i).1` and the high digit `(ds i).2` (R101). -/
def packDigits (ds : List (Nat × Nat)) : Bytes := ds.map fun d => BitVec.ofNat 8 (d.1 + 16 * d.2)

/-- The sum over k of `d[k] · 10^k`, low digit of each byte first (R101). -/
def digitSum (ds : List (Nat × Nat)) : Nat :=
  ((ds.flatMap fun d => [d.1, d.2]).zipIdx.map fun p => p.1 * 10 ^ p.2).sum

/-- Is the event a host read or write inside the window? -/
def Event.isAccess : Event → Bool
  | .read _ off => decide (off < Config.windowSize)
  | .write _ off _ => decide (off < Config.windowSize)
  | _ => false

end Sys2Proof.Machine
end

