-- ==== Sys2Proof/Certificates/Slice0/Obligations.lean ====
section
/-! DEFINITION. The statements about the WMBSEC block, from the numbered rules of the spec. `FB[i]` is read by
`Memory.read`; `Memory.Holds m off S` says that the bytes from off on are written and are S. -/

open Sys2Proof Sys2Proof.Machine

/-! ### Encoding -/

/-- Decoding an encoded well-formed command gives it back, with every operand at every value the encoding admits
(R78, R79, R90). -/
def Obligations.DecodeInvertsEncode : Prop := ∀ i : Instr, i.wf = true → decode (encode i) = .ok i

/-- Every legal word has one meaning: what it decodes to is well formed and encodes to that word, so no bit of a legal
word is dropped (R78, R79, R90). -/
def Obligations.EncodeInvertsDecode : Prop := ∀ (w : Word) (i : Instr), decode w = .ok i → i.wf = true ∧ encode i = w

/-- A word selects at most one row of the opcode map (R89). -/
def Obligations.AtMostOneRowSelects : Prop :=
  ∀ (w : Word) (o o' : Op), o.selects w = true → o'.selects w = true → o = o'

/-- The reserved encodings are exactly the words `decode` rejects, each completes with `ILLEGAL` and no other effect,
and none is ignored (R91). `LegalWord` says legality field by field in the layout of R77. -/
def Obligations.ReservedEncodingsAreIllegal : Prop :=
  ∀ w : Word, ((∃ i, decode w = .ok i) ↔ LegalWord w = true) ∧
    (LegalWord w = false → ∀ s : State,
      completion w s = .next { s with err := .illegal, eng := .idle, done := true, irq := s.irqen })

/-- Words written out from the table of R95, one for each command, decode to the command they stand for. -/
def Obligations.WordsOfTheTableDecode : Prop :=
  decode 0x00000000#32 = .ok .nop ∧ decode 0x00090001#32 = .ok (.crc16 0 9) ∧ decode 0x0004FC02#32 = .ok (.bcd 252 4) ∧
    decode 0x0006FA10#32 = .ok (.ctr .kconf 250 6) ∧ decode 0x00100051#32 = .ok (.cbciv .kenc 0 16) ∧
    decode 0x00012152#32 = .ok (.cbcz .kenc 33 1) ∧ decode 0x100B0020#32 = .ok (.cmac .kconf 0 11 true) ∧
    decode 0x14161BA1#32 = .ok (.cmacv .kmac 27 22 8 true) ∧ decode 0x00000330#32 = .ok (.kdf .kmac) ∧
    decode 0x00000131#32 = .ok (.kclr true)

/-! ### The step -/

/-- A step runs the decoded command: when the engine runs a word that decodes to i, and the completion is what happens
next, the step is exec of i at that state, the event taken off the script and nothing else around it; and the step of
`withFetchWord` is the completion of the word just launched (R90, R142; where the completion falls is an input, log 1,
and `withFetchWord` is log 3). -/
def Obligations.StepRunsTheDecodedCommand : Prop :=
  ∀ (s : State) (w : Word) (i : Instr), decode w = .ok i →
    (s.eng = .run w → s.script = [] → step s = exec i s) ∧
    (s.eng = .run w → ∀ rest, s.script = .complete :: rest → step s = exec i { s with script := rest }) ∧
    step (s.withFetchWord 32 w.toNat) = exec i { s.launch w with script := s.script, rst := false }

/-- The completion step (R142): it is enabled exactly when the engine runs; it ends the command with the engine idle,
`DONE` set and `irq` the level `IRQEN AND 1`, and is never refused; the only thing that stops it is an unwritten byte of
its span (R75, log 2). An idle engine does nothing. -/
def Obligations.CompletionEndsTheCommand : Prop :=
  ∀ s : State, (∀ w, s.eng = .run w →
      engineStep s = .fault .unwrittenByte ∨
        ∃ t, engineStep s = .next t ∧ t.eng = .idle ∧ t.busy = false ∧ t.done = true ∧ t.irq = s.irqen) ∧
    (s.eng = .idle → engineStep s = .next s)

/-- There is no cancellation (R143): no event but the completion (which a poll waits for) and the block's reset ends a
running command, or changes its word. The premise is an invariant (`InvariantKeptByEveryStep`). -/
def Obligations.NothingCancelsACommand : Prop :=
  ∀ (s t : State) (w : Word) (e : Event) (rest : List Event), s.resetIdle → s.eng = .run w → s.script = e :: rest →
    e ≠ .complete → e ≠ .poll → e ≠ .assertReset → step s = .next t → t.eng = .run w ∧ t.cmdLast = s.cmdLast

/-- The pre-checks (R139), in their order, stopping at the first that applies; a command that fails one writes nothing
but `STATUS` (`ERR`, `DONE`, `BUSY`), and with it the level `irq`. -/
def Obligations.PrechecksInOrder : Prop :=
  ∀ (w : Word) (s : State),
    (∀ e, decode w = .error e →
      completion w s = .next { s with err := .illegal, eng := .idle, done := true, irq := s.irqen }) ∧
    (∀ i off n, decode w = .ok i → spanOf i = some (off, n) → 256 < off + n →
      completion w s = .next { s with err := .range, eng := .idle, done := true, irq := s.irqen }) ∧
    (∀ i k, decode w = .ok i → (∀ off n, spanOf i = some (off, n) → off + n ≤ 256) → keyUsed i = some k →
      s.keyValid k = false →
      completion w s = .next { s with err := .nokey, eng := .idle, done := true, irq := s.irqen })

/-- Which commands can end with which error code (the table of R137): `RANGE` only one with a span, `NOKEY` only one
that uses a key, and each execution error only its own command (R140). -/
def Obligations.ErrorCodesByCommand : Prop :=
  ∀ (i : Instr) (s t : State), i.wf = true → exec i s = .next t →
    t.err ≠ .illegal ∧ (t.err = .range → (spanOf i).isSome) ∧ (t.err = .nokey → (keyUsed i).isSome) ∧
    (t.err = .badmac → ∃ k off len m p, i = .cmacv k off len m p) ∧
    (t.err = .wrongkey → (∃ k off len, 16 ≤ len ∧ i = .cbciv k off len) ∨ ∃ k off n, 1 ≤ n ∧ i = .cbcz k off n) ∧
    (t.err = .baddigit → ∃ off wid, i = .bcd off wid)

/-! ### Launch, status, keys -/

/-- Launch (R27): a 32-bit write of `CMD` while idle latches the word, whatever it is, clears `DONE`, `ERR`, `SENT` and
`MATCH` and makes the block busy; while busy it is a bus error and changes nothing else; a read of `CMD` returns the last
launched word, 0 after reset; a reserved word completes with `ILLEGAL`. -/
def Obligations.LaunchLatchesTheWord : Prop :=
  ∀ (s : State) (v : Word), s.irqLevel →
    (s.eng = .idle → hostWrite s .word 0x00C v = .next
      { s with cmdLast := v, done := false, err := .ok, sent := false, matched := false, eng := .run v, irq := false }) ∧
    (∀ w, s.eng = .run w → hostWrite s .word 0x00C v = .next { s with berr := true }) ∧
    hostRead s .word 0x00C = .next { s with rdata := some s.cmdLast } ∧ State.reset.cmdLast = 0x00000000#32 ∧
    (∀ e, decode v = .error e →
      completion v s = .next { s with err := .illegal, eng := .idle, done := true, irq := s.irqen })

/-- A write of `STATUS` (R26): v[1] clears `DONE`, v[2] clears `BERR`, every other bit is ignored, a 0 leaves the bit; it
is accepted whether or not the block is busy. The level `irq` follows `DONE` (R46). -/
def Obligations.StatusWriteClearsByOne : Prop :=
  ∀ (s : State) (v : Word), hostWrite s .word 0x008 v = .next
    { s with done := (if v.getLsbD 1 then false else s.done), berr := (if v.getLsbD 2 then false else s.berr),
             irq := s.irqen && (if v.getLsbD 1 then false else s.done) }

/-- The bits of `STATUS` (R25): each field at its place, every reserved bit 0, `BUSY` 1 exactly when a command runs (R43)
and `KVC` exactly when all four bits of `KCW` are 1. -/
def Obligations.StatusBitsAtTheirPlaces : Prop :=
  ∀ s : State, let v := s.regRead 0x008
    (v.getLsbD 0 = true ↔ ∃ w, s.eng = .run w) ∧ v.getLsbD 1 = s.done ∧ v.getLsbD 2 = s.berr ∧ v.getLsbD 3 = false ∧
    v.extractLsb' 4 4 = s.err.code ∧ v.getLsbD 8 = s.sent ∧ v.getLsbD 9 = s.matched ∧ v.extractLsb' 10 2 = 0#2 ∧
    (v.getLsbD 12 = true ↔ s.kcw = 15#4) ∧ v.getLsbD 13 = s.kve ∧ v.getLsbD 14 = s.kvm ∧ v.getLsbD 15 = false ∧
    v.extractLsb' 16 4 = s.kcw ∧ v.extractLsb' 20 12 = 0#12

/-- A write of `KCONFj` (R29): the word is stored and reads back, `KCW[j]` is set, both derived keys are zeroed and
invalid, nothing else changes; key byte `4j+b` is `KCONFj[8b+7:8b]`; `KCONF` and `KCW` are 0 at reset. -/
def Obligations.KconfWriteDropsDerivedKeys : Prop :=
  (∀ (s : State) (j : Fin 4) (v : Word), s.eng = .idle → s.irqLevel →
    hostWrite s .word (0x020 + 4 * j) v = .next
      { s with kconf := s.kconf.set j v, kcw := s.kcw ||| (1#4 <<< j.val), kenc := .zero, kmac := .zero,
               kve := false, kvm := false } ∧
    (s.regStore (.kconf j) v).regRead (0x020 + 4 * j) = v ∧
    (∀ b : Fin 4, ((s.regStore (.kconf j) v).keyOf .kconf).bytes[4 * j.val + b.val]? = some (v.extractLsb' (8 * b) 8))) ∧
  State.reset.kconf = .zero ∧ State.reset.kcw = 0#4

/-- `KVC` is 1 exactly when each of the four words has been written, in any order and any number of times (R31, R167). -/
def Obligations.ConfKeyValidAfterAllFourWords : Prop :=
  ∀ (s : State) (ws : List (Fin 4 × Word)),
    (ws.foldl (fun t p => t.regStore (.kconf p.1) p.2) s).kvc = true ↔
      ∀ j : Fin 4, s.kcw.getLsbD j = true ∨ ∃ v, (j, v) ∈ ws

/-- `key(KSEL)` (R32): the valid bit and the 16 bytes, in register order, of the chosen key. -/
def Obligations.KeySelectsRegistersAndValidBit : Prop :=
  ∀ s : State, (s.keyValid .kconf = true ↔ s.kcw = 15#4) ∧ s.keyValid .kenc = s.kve ∧ s.keyValid .kmac = s.kvm ∧
    (s.keyOf .kconf).bytes = le4 s.kconf.w0 ++ le4 s.kconf.w1 ++ le4 s.kconf.w2 ++ le4 s.kconf.w3 ∧
    (s.keyOf .kenc).bytes = le4 s.kenc.w0 ++ le4 s.kenc.w1 ++ le4 s.kenc.w2 ++ le4 s.kenc.w3 ∧
    (s.keyOf .kmac).bytes = le4 s.kmac.w0 ++ le4 s.kmac.w1 ++ le4 s.kmac.w2 ++ le4 s.kmac.w3

/-! ### Host accesses -/

/-- Reserved bits and offsets, read-only registers (R42): a reserved bit of a defined register reads 0 and ignores writes,
a reserved offset reads 0 and ignores writes, a write to a read-only register is ignored, and none of these is a bus error
when the access is aligned, 32-bit and the block is not busy; the other bits of a writable register read back as
written (R169). -/
def Obligations.ReservedReadsZeroAndIgnoresWrites : Prop :=
  ∀ (s : State) (off : Nat) (v : Word), off < 256 → off % 4 = 0 → s.eng = .idle → s.irqLevel →
    hostRead s .word off = .next { s with rdata := some (s.regRead off) } ∧
    hostWrite s .word off v = .next (s.regWrite off v).refreshIrq ∧
    (off ≠ 0x008 → (s.regWrite off v).berr = s.berr) ∧
    s.regRead off &&& reservedBits off = 0#32 ∧
    s.regWrite off v = s.regWrite off (v &&& ~~~(reservedBits off)) ∧
    (regAt off = none → s.regRead off = 0#32 ∧ s.regWrite off v = s) ∧
    (off ∈ [0x000, 0x010, 0x014, 0x030, 0x034, 0x038, 0x03C, 0x040, 0x044, 0x048, 0x04C, 0x080, 0x084, 0x088, 0x08C] →
      s.regWrite off v = s) ∧
    (off ∈ [0x004, 0x020, 0x024, 0x028, 0x02C, 0x050, 0x054, 0x058, 0x05C, 0x060, 0x064, 0x068, 0x070, 0x074, 0x078,
      0x07C] → (s.regWrite off v).regRead off = v &&& ~~~(reservedBits off))

/-- Which host writes reach what the engine writes (R19, R166): no register write changes `RESULT`, `MAC` or FBUF, and
the key registers change only on a write of a `KCONF` word, so a write of a header register or of the message counter
leaves derived keys valid. -/
def Obligations.HostWritesLeaveEngineRegisters : Prop :=
  ∀ (s : State) (r : Reg) (v : Word),
    (s.regStore r v).result = s.result ∧ (s.regStore r v).mac = s.mac ∧ FbufKept s (s.regStore r v) ∧
    ((∀ j, r ≠ .kconf j) → KeysKept s (s.regStore r v))

/-- The register area accepts only aligned 32-bit accesses (R56); FBUF accepts 8-bit accesses anywhere, 16-bit at even
offsets and 32-bit at multiples of 4 (R57). An accepted write leaves `BERR`, any other access is a bus error; here the
block is idle. -/
def Obligations.WidthsAndAlignment : Prop :=
  ∀ (s : State) (wd : Width) (off : Nat) (v : Word), s.eng = .idle → s.irqLevel → off < 512 →
    (off < 256 → (wd ≠ .word ∨ off % 4 ≠ 0) →
      hostRead s wd off = .next { s with berr := true, rdata := some 0#32 } ∧
      hostWrite s wd off v = .next { s with berr := true }) ∧
    (off < 256 → wd = .word → off % 4 = 0 →
      hostRead s wd off = .next { s with rdata := some (s.regRead off) } ∧
      hostWrite s wd off v = .next (s.regWrite off v).refreshIrq) ∧
    (256 ≤ off → off % wd.bytes = 0 →
      (∃ t, hostWrite s wd off v = .next t ∧ t.berr = s.berr) ∧
      (∀ S : Bytes, S.length = wd.bytes → s.fbuf.Holds (off - 256) S →
        hostRead s wd off = .next { s with rdata := some (wordOfBytes S) })) ∧
    (256 ≤ off → off % wd.bytes ≠ 0 →
      hostRead s wd off = .next { s with berr := true, rdata := some 0#32 } ∧
      hostWrite s wd off v = .next { s with berr := true })

/-- The mixed-width view of FBUF is consistent (R54): a 32-bit and a 16-bit read are the little-endian sums of the bytes,
and a byte write changes only the byte it names. -/
def Obligations.MixedWidthViewsAgree : Prop :=
  ∀ s : State, s.eng = .idle → s.fbuf.wf →
    (∀ (q : Nat) (b0 b1 b2 b3 : Byte), q < 64 → s.fbuf.read (4 * q) = some b0 → s.fbuf.read (4 * q + 1) = some b1 →
      s.fbuf.read (4 * q + 2) = some b2 → s.fbuf.read (4 * q + 3) = some b3 →
      ∃ v : Word, memRead s .word (0x100 + 4 * q) = .next (s, v) ∧
        v.toNat = b0.toNat + 2 ^ 8 * b1.toNat + 2 ^ 16 * b2.toNat + 2 ^ 24 * b3.toNat) ∧
    (∀ (q : Nat) (b0 b1 : Byte), q < 128 → s.fbuf.read (2 * q) = some b0 → s.fbuf.read (2 * q + 1) = some b1 →
      ∃ v : Word, memRead s .half (0x100 + 2 * q) = .next (s, v) ∧ v.toNat = b0.toNat + 2 ^ 8 * b1.toNat) ∧
    (∀ (i : Nat) (v : Word), i < 256 → ∃ t, memWrite s .byte (0x100 + i) v = .next t ∧
      ∀ a, t.fbuf.read a = if a = i then some (v.extractLsb' 0 8) else s.fbuf.read a)

/-- A store to FBUF (R65) writes exactly its bytes, `FB[i+k] <- v[8k+7:8k]`: every byte outside them reads as before, and
no register, flag or other state changes. -/
def Obligations.FbufStoreWritesExactlyItsBytes : Prop :=
  ∀ (s : State) (wd : Width) (i : Nat) (v : Word), s.eng = .idle → s.fbuf.wf → s.irqLevel → i < 256 →
    i % wd.bytes = 0 →
    ∃ t, hostWrite s wd (0x100 + i) v = .next t ∧ t = { s with fbuf := t.fbuf } ∧
      (∀ k, k < wd.bytes → t.fbuf.read (i + k) = some (v.extractLsb' (8 * k) 8)) ∧ FbufKeptOutside s t i wd.bytes

/-- A bus error (R70): a refused read returns 0, a refused write changes nothing, and in both cases `BERR` is set; no
command is launched, aborted or completed, `ERR` does not change and `irq` is not driven by it. `readRefused` and
`writeRefused` are the refusals of `MemRead` and `MemWrite` (R64, R65). -/
def Obligations.BusErrorOnlySetsBerr : Prop :=
  ∀ (s : State) (wd : Width) (off : Nat), s.irqLevel → off < 512 →
    (readRefused s wd off = true → hostRead s wd off = .next { s with berr := true, rdata := some 0#32 }) ∧
    (writeRefused s wd off = true → ∀ v, hostWrite s wd off v = .next { s with berr := true })

/-- The busy lockout (R66): while a command runs the block accepts only 32-bit reads of `ID`, `STATUS` and `CMD` and
32-bit writes of `STATUS`; every other access in the window is a bus error and has no effect but `BERR`. -/
def Obligations.BusyLockout : Prop :=
  ∀ (s : State) (w : Word) (wd : Width) (off : Nat) (v : Word), s.eng = .run w → s.irqLevel → off < 512 →
    (wd = .word → off ∈ [0x000, 0x008, 0x00C] →
      hostRead s wd off = .next { s with rdata := some (s.regRead off) }) ∧
    (¬ (wd = .word ∧ off ∈ [0x000, 0x008, 0x00C]) →
      hostRead s wd off = .next { s with berr := true, rdata := some 0#32 }) ∧
    (wd = .word → off = 0x008 → hostWrite s wd off v = .next (s.ackStatus v).refreshIrq) ∧
    (¬ (wd = .word ∧ off = 0x008) → hostWrite s wd off v = .next { s with berr := true })

/-- Every read is free of side effects, but that a bus error sets `BERR` (R61): whatever a read answers, nothing changes
but `BERR` and the data the host gets. -/
def Obligations.ReadsHaveNoSideEffect : Prop :=
  ∀ (s t : State) (wd : Width) (off : Nat), s.irqLevel → hostRead s wd off = .next t →
    ∃ v, (t = { s with rdata := some v } ∧ readRefused s wd off = false) ∨
      (t = { s with berr := true, rdata := some v } ∧ readRefused s wd off = true ∧ v = 0#32)

/-- An unwritten byte of FBUF has no value, and reading it is a fault (R75): by a host read that covers it, and by a
command that passes its pre-checks and whose span includes it. -/
def Obligations.UnwrittenByteFaults : Prop :=
  (∀ (s : State) (wd : Width) (off k : Nat), s.eng = .idle → off % wd.bytes = 0 → 0x100 ≤ off → off < 0x200 →
    k < wd.bytes → s.fbuf.read (off - 0x100 + k) = none → hostRead s wd off = .fault .unwrittenByte) ∧
  (∀ (s : State) (i : Instr) (off n k : Nat), precheck s i = none → spanOf i = some (off, n) → k < n →
    s.fbuf.read (off + k) = none → exec i s = .fault .unwrittenByte)

/-- The interrupt (R145): `irq` rises when a command completes with `IRQEN` = 1 and when `IRQEN` is set while `DONE` is 1;
it falls on a 1 written to `DONE`, on the next launch, and on clearing `IRQEN`, which leaves `DONE`. -/
def Obligations.InterruptRisesAndFalls : Prop :=
  ∀ (s : State) (v : Word), s.eng = .idle →
    (∀ e, (s.finish e).irq = s.irqen ∧ (s.finish e).done = true) ∧
    (∃ t, hostWrite s .word 0x004 v = .next t ∧ t.irq = (v.getLsbD 0 && s.done) ∧ t.done = s.done) ∧
    (v.getLsbD 1 = true → ∃ t, hostWrite s .word 0x008 v = .next t ∧ t.irq = false ∧ t.done = false) ∧
    (∃ t, hostWrite s .word 0x00C v = .next t ∧ t.irq = false ∧ t.done = false)

/-! ### Each command's effect, and that it completes

A flag `SENT` or `MATCH` that a command does not write stays as the launch left it (R25, R139; DEDUCED, log 11). -/

/-- `NOP` (R135) completes and changes nothing but the flags of every completion. -/
def Obligations.NopCompletes : Prop :=
  ∀ s : State, exec .nop s = .next { s with err := .ok, eng := .idle, done := true, irq := s.irqen }

/-- `CRC16` (R98, R99): `RESULT0` gets the CRC of the span, complemented when `CRCINV` = 1, and `RESULT1` gets 0. -/
def Obligations.Crc16Completes : Prop :=
  ∀ (s : State) (off len : Nat) (S : Bytes), off < 256 → off + len ≤ 256 → S.length = len → s.fbuf.Holds off S →
    ∃ t, exec (.crc16 off len) s = .next t ∧
      t = { s with result := t.result, err := .ok, eng := .idle, done := true, irq := s.irqen } ∧
      t.regRead 0x010 = (crc16 S (if s.crcinv then 0xFFFF#16 else 0x0000#16)).zeroExtend 32 ∧ t.regRead 0x014 = 0#32

/-- `BCD` (R101, R102): `RESULT` gets the decoded value as a 64-bit two's complement number; with a bad digit the command
ends `BADDIGIT` and `RESULT` is unchanged. -/
def Obligations.BcdCompletes : Prop :=
  ∀ (s : State) (off wid : Nat) (S : Bytes), off < 256 → wid ∈ [1, 2, 3, 4, 6] → off + wid ≤ 256 → S.length = wid →
    s.fbuf.Holds off S →
    (∀ r, bcdValue S = some r → exec (.bcd off wid) s = .next
      { s with result := BitVec.ofInt 64 r, err := .ok, eng := .idle, done := true, irq := s.irqen }) ∧
    (bcdValue S = none → exec (.bcd off wid) s = .next
      { s with err := .baddigit, eng := .idle, done := true, irq := s.irqen })

/-- `CTR` (R117, R118): byte k of the span becomes itself exclusive-or byte `k mod 16` of the encrypted counter block
`HDR ‖ CC ‖ le_4(SN) ‖ le_2(FN) ‖ k/16` (R116); every other byte and all other state but the completion's flags is
unchanged. -/
def Obligations.CtrCompletes : Prop :=
  ∀ (s : State) (key : KeySel) (off len : Nat) (S : Bytes), off < 256 → off + len ≤ 256 → S.length = len →
    s.fbuf.Holds off S → s.fbuf.wf → s.keyValid key = true →
    ∃ t, exec (.ctr key off len) s = .next t ∧
      t = { s with fbuf := t.fbuf, err := .ok, eng := .idle, done := true, irq := s.irqen } ∧
      (∀ k : Fin S.length, ∃ b, t.fbuf.read (off + k) = some (S[k] ^^^ b) ∧
        (aesEnc (s.keyOf key) (Block.ofBytes (le4 s.hdr0 ++ le4 s.hdr1 ++ [s.cc] ++ le4 s.sn ++ le2 s.fn ++
          [BitVec.ofNat 8 (k / 16)]))).bytes[k.val % 16]? = some b) ∧
      FbufKeptOutside s t off len

/-- `CBCIV` (R119, R121, R122): each of the `floor(LEN/16)` whole blocks is decrypted and chained, the first on
`IV5 = HDR ‖ rep(ACC, 8)`; the bytes past them are untouched; `SENT` is the sentinel check, and without the sentinel the
command ends `WRONGKEY` with the decrypted bytes kept; without a whole block it ends OK with `SENT` 0 (R120). -/
def Obligations.CbcivCompletes : Prop :=
  ∀ (s : State) (key : KeySel) (off len : Nat) (S : Bytes), off < 256 → off + len ≤ 256 → S.length = len →
    s.fbuf.Holds off S → s.fbuf.wf → s.keyValid key = true →
    ∃ t, exec (.cbciv key off len) s = .next t ∧
      t = { s with fbuf := t.fbuf, sent := t.sent, err := t.err, eng := .idle, done := true, irq := s.irqen } ∧
      (∀ i, i < len / 16 → t.fbuf.Holds (off + 16 * i)
        (cbcPlain (s.keyOf key) (Block.ofBytes (le4 s.hdr0 ++ le4 s.hdr1 ++ List.replicate 8 s.acc)) S i).bytes) ∧
      FbufKeptOutside s t off (16 * (len / 16)) ∧
      (len < 16 → t.sent = false ∧ t.err = .ok) ∧
      (16 ≤ len → (t.sent = true ↔ t.fbuf.read off = some 0x2F#8 ∧ t.fbuf.read (off + 1) = some 0x2F#8) ∧
        t.err = if t.sent then .ok else .wrongkey)

/-- `CBCZ` (R119, R120, R123, R124): the same on exactly `NBLK` blocks with an IV of zeros. -/
def Obligations.CbczCompletes : Prop :=
  ∀ (s : State) (key : KeySel) (off nblk : Nat) (S : Bytes), off < 256 → nblk < 16 → off + 16 * nblk ≤ 256 →
    S.length = 16 * nblk → s.fbuf.Holds off S → s.fbuf.wf → s.keyValid key = true →
    ∃ t, exec (.cbcz key off nblk) s = .next t ∧
      t = { s with fbuf := t.fbuf, sent := t.sent, err := t.err, eng := .idle, done := true, irq := s.irqen } ∧
      (∀ i, i < nblk → t.fbuf.Holds (off + 16 * i)
        (cbcPlain (s.keyOf key) (Block.ofBytes (List.replicate 16 0x00#8)) S i).bytes) ∧
      FbufKeptOutside s t off (16 * nblk) ∧
      (nblk = 0 → t.sent = false ∧ t.err = .ok) ∧
      (1 ≤ nblk → (t.sent = true ↔ t.fbuf.read off = some 0x2F#8 ∧ t.fbuf.read (off + 1) = some 0x2F#8) ∧
        t.err = if t.sent then .ok else .wrongkey)

/-- `CMAC` (R127, R128): `MAC` gets the tag of the message `(MCL ‖ le_4(MCTR) if PFX) ‖ FB[OFF +: LEN]`, its first byte in
bits [7:0] of `MAC0`. -/
def Obligations.CmacCompletes : Prop :=
  ∀ (s : State) (key : KeySel) (off len : Nat) (pfx : Bool) (S : Bytes), off < 256 → off + len ≤ 256 →
    S.length = len → s.fbuf.Holds off S → s.keyValid key = true →
    ∃ t, exec (.cmac key off len pfx) s = .next t ∧
      t = { s with mac := t.mac, err := .ok, eng := .idle, done := true, irq := s.irqen } ∧
      t.mac.bytes = (cmac (s.keyOf key) ((if pfx then [s.mcl] ++ le4 s.mctr else []) ++ S)).bytes

/-- `CMACV` (R127, R129, R130): `MAC` gets the tag as for `CMAC`; `MATCH` is 1 exactly when its first m bytes are those of
`EXPMAC`; the command ends OK then and `BADMAC` otherwise, with `MAC` written in both cases. -/
def Obligations.CmacvCompletes : Prop :=
  ∀ (s : State) (key : KeySel) (off len m : Nat) (pfx : Bool) (S : Bytes), off < 256 → off + len ≤ 256 →
    m ∈ [2, 4, 8, 12, 16] → S.length = len → s.fbuf.Holds off S → s.keyValid key = true →
    ∃ t, exec (.cmacv key off len m pfx) s = .next t ∧
      t = { s with mac := t.mac, matched := t.matched, err := t.err, eng := .idle, done := true, irq := s.irqen } ∧
      t.mac.bytes = (cmac (s.keyOf key) ((if pfx then [s.mcl] ++ le4 s.mctr else []) ++ S)).bytes ∧
      (t.matched = true ↔ ∀ k, k < m → t.mac.bytes[k]? = s.expmac.bytes[k]?) ∧
      t.err = if t.matched then .ok else .badmac

/-- `KDF` (R131, R132): with `KCONF` valid, the key `DC` names gets `CMAC(KCONF, DC ‖ le_4(MCTR) ‖ HDR[2 +: 4] ‖ 07 x 7)`
and its valid bit; `MAC` and the other derived key are not written. -/
def Obligations.KdfCompletes : Prop :=
  ∀ s : State, s.kvc = true →
    (∃ t, exec (.kdf .kenc) s = .next t ∧
      t = { s with kenc := t.kenc, kve := true, err := .ok, eng := .idle, done := true, irq := s.irqen } ∧
      t.kenc.bytes = (cmac (s.keyOf .kconf) ([0x00#8] ++ le4 s.mctr ++ ((le4 s.hdr0 ++ le4 s.hdr1).drop 2).take 4 ++
        List.replicate 7 0x07#8)).bytes) ∧
    (∃ t, exec (.kdf .kmac) s = .next t ∧
      t = { s with kmac := t.kmac, kvm := true, err := .ok, eng := .idle, done := true, irq := s.irqen } ∧
      t.kmac.bytes = (cmac (s.keyOf .kconf) ([0x01#8] ++ le4 s.mctr ++ ((le4 s.hdr0 ++ le4 s.hdr1).drop 2).take 4 ++
        List.replicate 7 0x07#8)).bytes)

/-- `KCLR` (R136): the derived keys are zeroed and invalid, with `ALL` = 1 also `KCONF` and `KCW`; nothing else but the
completion's flags. -/
def Obligations.KclrCompletes : Prop :=
  ∀ (s : State) (all : Bool), exec (.kclr all) s = .next
    { s with kenc := .zero, kmac := .zero, kve := false, kvm := false,
             kconf := (if all then .zero else s.kconf), kcw := (if all then 0#4 else s.kcw),
             err := .ok, eng := .idle, done := true, irq := s.irqen }

/-! ### Frames -/

/-- Frame of the commands that store nothing: `NOP`, `CRC16`, `BCD`, `CMAC`, `CMACV`, `KDF`, `KCLR` leave every byte of
FBUF as it was, however they end. -/
def Obligations.NonStoringCommandsKeepFbuf : Prop :=
  ∀ (i : Instr) (s t : State), (i = .nop ∨ (∃ off len, i = .crc16 off len) ∨ (∃ off wid, i = .bcd off wid) ∨
      (∃ k off len p, i = .cmac k off len p) ∨ (∃ k off len m p, i = .cmacv k off len m p) ∨ (∃ dc, i = .kdf dc) ∨
      ∃ all, i = .kclr all) →
    exec i s = .next t → FbufKept s t

/-- Frame of the ciphers, however they end: every byte outside the bytes they decrypt (all `LEN` for `CTR`, the whole
blocks for `CBCIV` and `CBCZ`) reads as before, and `RESULT`, `MAC`, the keys, the flag `MATCH` are unchanged (for
`CTR` also `SENT`; that the completion does not clear these flags again is DEDUCED, log 11). -/
def Obligations.CipherFrame : Prop :=
  ∀ (s t : State) (key : KeySel) (off : Nat), s.fbuf.wf →
    (∀ len, exec (.ctr key off len) s = .next t → FbufKeptOutside s t off len ∧ t.result = s.result ∧ t.mac = s.mac ∧
      KeysKept s t ∧ t.matched = s.matched ∧ t.sent = s.sent) ∧
    (∀ len, exec (.cbciv key off len) s = .next t → FbufKeptOutside s t off (16 * (len / 16)) ∧ t.result = s.result ∧
      t.mac = s.mac ∧ KeysKept s t ∧ t.matched = s.matched) ∧
    (∀ n, exec (.cbcz key off n) s = .next t → FbufKeptOutside s t off (16 * n) ∧ t.result = s.result ∧ t.mac = s.mac ∧
      KeysKept s t ∧ t.matched = s.matched)

/-- No command writes a register that only the host writes (R19), nor `BERR`, nor `CMD_LAST`, nor anything outside the
block. -/
def Obligations.CommandsKeepHostRegisters : Prop :=
  ∀ (i : Instr) (s t : State), exec i s = .next t → HostRegsKept s t ∧ OutsideKept s t

/-- Only `KDF` and `KCLR` write keys (R30, R19): `KDF` only the key it names and its valid bit, `KCLR` without `ALL` not
`KCONF`. -/
def Obligations.OnlyKdfAndKclrWriteKeys : Prop :=
  ∀ (i : Instr) (s t : State), exec i s = .next t →
    ((∀ dc, i ≠ .kdf dc) → (∀ all, i ≠ .kclr all) → KeysKept s t) ∧
    (i = .kdf .kenc → t.kconf = s.kconf ∧ t.kcw = s.kcw ∧ t.kmac = s.kmac ∧ t.kvm = s.kvm) ∧
    (i = .kdf .kmac → t.kconf = s.kconf ∧ t.kcw = s.kcw ∧ t.kenc = s.kenc ∧ t.kve = s.kve) ∧
    (i = .kclr false → t.kconf = s.kconf ∧ t.kcw = s.kcw)

/-- `RESULT` is written only by a `CRC16` or a `BCD` that ends with `OK` (R28), and `MAC` only by a `CMAC` or `CMACV` that
passed its checks (R40). -/
def Obligations.OnlyTheirCommandsWriteResultAndMac : Prop :=
  ∀ (i : Instr) (s t : State), exec i s = .next t →
    (t.result = s.result ∨ (t.err = .ok ∧ ((∃ off len, i = .crc16 off len) ∨ ∃ off wid, i = .bcd off wid))) ∧
    (t.mac = s.mac ∨ (precheck s i = none ∧
      ((∃ k off len p, i = .cmac k off len p) ∨ ∃ k off len m p, i = .cmacv k off len m p)))

/-- The flags `SENT` and `MATCH`: only a completion of `CBCIV` or `CBCZ` writes `SENT`, only one of `CMACV` writes `MATCH`.
The model's reading (DEDUCED, log 11): R25 lets no other completion set them and only the launch clear them, and R142
writes neither, so the 0 that R45 prints for the other commands is what the launch left. -/
def Obligations.SentAndMatchFrame : Prop :=
  ∀ (i : Instr) (s t : State), exec i s = .next t →
    (t.sent = s.sent ∨ (∃ k off len, i = .cbciv k off len) ∨ ∃ k off n, i = .cbcz k off n) ∧
    (t.matched = s.matched ∨ ∃ k off len m p, i = .cmacv k off len m p)

/-! ### Properties of the computations -/

/-- `bcd_value` (R101) on the bytes of a digit string whose top digit is `top`: all digits decimal, it is the sum of
`d[k] · 10^k`; the top digit 0xF and the rest decimal, it is minus that sum with the top digit 0; any other, BADDIGIT. -/
def Obligations.BcdValueOfDigits : Prop :=
  ∀ (ds : List (Nat × Nat)) (lo top : Nat), (∀ d ∈ ds, d.1 < 16 ∧ d.2 < 16) → lo < 16 → top < 16 →
    ((∀ d ∈ ds, d.1 ≤ 9 ∧ d.2 ≤ 9) → lo ≤ 9 → top ≤ 9 →
      bcdValue (packDigits (ds ++ [(lo, top)])) = some (digitSum (ds ++ [(lo, top)]) : Int)) ∧
    ((∀ d ∈ ds, d.1 ≤ 9 ∧ d.2 ≤ 9) → lo ≤ 9 → top = 15 →
      bcdValue (packDigits (ds ++ [(lo, top)])) = some (-(digitSum (ds ++ [(lo, 0)]) : Int))) ∧
    ((∃ d ∈ ds, 9 < d.1 ∨ 9 < d.2) ∨ 9 < lo ∨ (9 < top ∧ top ≠ 15) →
      bcdValue (packDigits (ds ++ [(lo, top)])) = none)

/-- The range of a BCD value of width w ≥ 1 is -(10^(2w-1) - 1) to 10^(2w) - 1, so it is the value of `RESULT` read as a
signed number for every legal width (R102). -/
def Obligations.BcdValueFits : Prop :=
  ∀ (B : Bytes) (r : Int), 1 ≤ B.length → bcdValue B = some r →
    -(10 ^ (2 * B.length - 1) - 1) ≤ r ∧ r ≤ 10 ^ (2 * B.length) - 1 ∧
      (B.length ≤ 6 → (BitVec.ofInt 64 r).toInt = r)

/-- The residue of `CRC16` (R99): the CRC over data followed by its own CRC, most significant byte first, is 0x0000 with
`CRCINV` = 0 and the constant 0x5C99 with `CRCINV` = 1; a string of zeros gives `XOROUT`. -/
def Obligations.CrcResidueIsConstant : Prop :=
  (∀ S : Bytes, crc16 (S ++ [(crc16 S 0x0000#16).extractLsb' 8 8, (crc16 S 0x0000#16).extractLsb' 0 8]) 0x0000#16 = 0x0000#16) ∧
  (∀ S : Bytes, crc16 (S ++ [(crc16 S 0xFFFF#16).extractLsb' 8 8, (crc16 S 0xFFFF#16).extractLsb' 0 8]) 0xFFFF#16 = 0x5C99#16) ∧
  (∀ (n : Nat) (x : BitVec 16), crc16 (List.replicate n 0x00#8) x = x)

/-- `AES_Dec` and `AES_Enc` are inverse to each other for every key (R104, R115). The cipher is the one 41_aes_core.md gives
from general knowledge (PRESUMED, log 4). -/
def Obligations.AesDecInvertsAesEnc : Prop :=
  ∀ K X : Block, aesDec K (aesEnc K X) = X ∧ aesEnc K (aesDec K X) = X

/-- The tables agree with the formula of R105: `SBOX[a]` is the affine map of the inverse of a in GF(2^8), and of 0 for
a = 0; and `INV_SBOX` is the inverse permutation (R106, R107). -/
def Obligations.SboxIsAffineOfInverse : Prop :=
  ∀ a : Byte,
    (∃ b : Byte, (if a = 0#8 then b = 0#8 else gmul a b = 1#8) ∧
      sbox a = b ^^^ b.rotateLeft 1 ^^^ b.rotateLeft 2 ^^^ b.rotateLeft 3 ^^^ b.rotateLeft 4 ^^^ 0x63#8) ∧
    invSbox (sbox a) = a ∧ sbox (invSbox a) = a

/-- `ctr_xcrypt` is its own inverse, and so is the command (R117, R118): a second identical `CTR` restores every byte of
FBUF. -/
def Obligations.CtrTwiceRestores : Prop :=
  (∀ (K : Block) (ctr : Nat → Block) (S : Bytes), ctrXcrypt K ctr (ctrXcrypt K ctr S) = S) ∧
  (∀ (s t : State) (key : KeySel) (off len : Nat), s.fbuf.wf → exec (.ctr key off len) s = .next t → t.err = .ok →
    ∃ u, exec (.ctr key off len) t = .next u ∧ u.err = .ok ∧ FbufKept s u)

/-- Round trip (R125): FBUF holding the CBC encryption, under `key(KSEL)` and `IV5`, of a plaintext of 16n bytes that begins
`2F 2F`, `CBCIV` restores the plaintext and ends OK with `SENT` = 1. -/
def Obligations.CbcRoundTrip : Prop :=
  ∀ (s : State) (key : KeySel) (off n : Nat) (P : Bytes), off < 256 → off + 16 * n ≤ 256 → P.length = 16 * n →
    P[0]? = some 0x2F#8 → P[1]? = some 0x2F#8 → s.fbuf.wf → s.keyValid key = true →
    s.fbuf.Holds off (cbcEncrypt (s.keyOf key) s.iv5 P n) →
    ∃ t, exec (.cbciv key off (16 * n)) s = .next t ∧ t.fbuf.Holds off P ∧ t.err = .ok ∧ t.sent = true ∧
      FbufKeptOutside s t off (16 * n)

/-- Flipping any compared byte of the expected MAC turns a match into `BADMAC`, and bytes past the declared length do not
matter (R129, 90_conflicts.md C5): two states that differ only in `EXPMAC`. -/
def Obligations.ComparedMacBytesDecide : Prop :=
  ∀ (s t : State) (q : Quad) (key : KeySel) (off len m : Nat) (pfx : Bool), m ∈ [2, 4, 8, 12, 16] →
    exec (.cmacv key off len m pfx) s = .next t → t.err = .ok →
    ((∃ k, k < m ∧ q.bytes[k]? ≠ s.expmac.bytes[k]?) →
      ∃ u, exec (.cmacv key off len m pfx) { s with expmac := q } = .next u ∧ u.err = .badmac ∧ u.matched = false ∧
        u.mac = t.mac) ∧
    ((∀ k, k < m → q.bytes[k]? = s.expmac.bytes[k]?) →
      exec (.cmacv key off len m pfx) { s with expmac := q } = .next { t with expmac := q })

/-- The check values of R114 (SP 800-38B): the tags of the empty, 16-byte, 40-byte and 64-byte messages. -/
def Obligations.CmacCheckValues : Prop :=
  let K := Block.ofBe 0x2B7E151628AED2A6ABF7158809CF4F3C#128
  let m0 := (Block.ofBe 0x6BC1BEE22E409F96E93D7E117393172A#128).bytes
  let m1 := (Block.ofBe 0xAE2D8A571E03AC9C9EB76FAC45AF8E51#128).bytes
  let m2 := (Block.ofBe 0x30C81C46A35CE411E5FBC1191A0A52EF#128).bytes
  let m3 := (Block.ofBe 0xF69F2445DF4F9B17AD2B417BE66C3710#128).bytes
  cmac K [] = Block.ofBe 0xBB1D6929E95937287FA37D129B756746#128 ∧
  cmac K m0 = Block.ofBe 0x070A16B46B4D4144F79BDD9DD04A287C#128 ∧
  cmac K (m0 ++ m1 ++ m2.take 8) = Block.ofBe 0xDFA66747DE9AE63030CA32611497C827#128 ∧
  cmac K (m0 ++ m1 ++ m2 ++ m3) = Block.ofBe 0x51F0BEBF7E3B9D92FC49741779363CFE#128

/-! ### Reset -/

/-- The reset state (R156): every register at its reset value through the register map, every byte of FBUF unwritten, the
engine idle, `irq` 0, every key invalid; and nothing of the block survives a reset. -/
def Obligations.ResetStateValues : Prop :=
  State.reset.eng = .idle ∧ State.reset.regRead 0x000 = 0x574D0701#32 ∧ State.reset.regRead 0x004 = 0x00000002#32 ∧
    (∀ off, off < 256 → off ≠ 0x000 → off ≠ 0x004 → State.reset.regRead off = 0#32) ∧
    (∀ a, State.reset.fbuf.read a = none) ∧ State.reset.irq = false ∧
    (∀ k, State.reset.keyValid k = false) ∧
    ∀ s : State, s.enterReset.leaveReset.eng = .idle ∧ s.enterReset.leaveReset.irq = false ∧
      (∀ a, s.enterReset.leaveReset.fbuf.read a = none) ∧
      ∀ off, off < 256 → s.enterReset.leaveReset.regRead off = State.reset.regRead off

/-- Reset during a command (R158): the command is abandoned without a completion, and when reset is released the state is
the reset state, whatever it was: no `DONE`, no `irq`, no error code. What is outside the block goes on. -/
def Obligations.ResetAbandonsTheCommand : Prop :=
  ∀ (s : State) (rest : List Event), s.script = .assertReset :: .releaseReset :: rest →
    Host.Core.run Sys2Proof.core 2 s = .next { State.reset with script := rest, stopped := s.stopped }

/-! ### Invariants and whole-machine rules -/

/-- The reset state meets the invariant. -/
def Obligations.ResetMeetsInvariant : Prop := State.reset.Inv

/-- Every step keeps the invariant: FBUF's list in canonical form, `irq = IRQEN AND DONE` (R46), a running command's flags
as the launch left them (R45), invalid derived keys 0 (R29), valid derived keys derived from the present `KCONF` (R30,
D13), `SENT` and `MATCH` only with OK, no command during reset. -/
def Obligations.InvariantKeptByEveryStep : Prop := ∀ s t : State, s.Inv → step s = .next t → t.Inv

/-- The interrupt output (R46): after every host access and every completion, whatever `irq` was before, it is
`IRQEN AND DONE`; and every step keeps it so, whatever the step does, so no other condition drives it. -/
def Obligations.IrqIsTheLevel : Prop :=
  (∀ s t : State, (∃ wd off, hostRead s wd off = .next t) ∨ (∃ wd off v, hostWrite s wd off v = .next t) ∨
      (∃ off mask v, hostCheck s off mask v = .next t) ∨ (∃ w, completion w s = .next t) →
    t.irq = (t.irqen && t.done)) ∧
  ∀ s t : State, step s = .next t → s.irq = (s.irqen && s.done) → t.irq = (t.irqen && t.done)

/-- A `STATUS` read shows a command wholly before or wholly after its completion, never a mixture (R69): `BUSY` and `DONE`
are never both 1, and while `BUSY` is 1, `ERR`, `SENT` and `MATCH` read 0. -/
def Obligations.StatusIsNeverAMixture : Prop :=
  ∀ s : State, s.Inv → (s.regRead 0x008).getLsbD 0 = true →
    (s.regRead 0x008).getLsbD 1 = false ∧ (s.regRead 0x008).extractLsb' 4 6 = 0#6

/-- The latency of a command does not change its result (R66, R69, R72): however many host accesses fall between the launch
and the completion, the run ends as the completion at once would, but for `BERR` and the data the host read; so a launched
command also ends. That the accesses and the completion's place are a list of inputs is the model's choice (log 1). -/
def Obligations.LatencyDoesNotChangeTheResult : Prop :=
  ∀ (es : List Event) (s : State) (w : Word), (∀ e ∈ es, e.isAccess = true) → s.eng = .run w → s.rst = false →
    s.script = es →
    (∀ u, completion w { s with script := [] } = .next u →
      ∃ b d, Host.Core.run Sys2Proof.core (es.length + 1) s = .next { u with berr := b, rdata := d }) ∧
    (∀ f, completion w { s with script := [] } = .fault f →
      Host.Core.run Sys2Proof.core (es.length + 1) s = .fault f) ∧
    (∀ r, completion w { s with script := [] } ≠ .refused r)

/-- Instances share nothing (R152): a step of one instance leaves every other as it was, and an access reaches only the
instance whose window holds its address. -/
def Obligations.InstancesShareNothing : Prop :=
  (∀ (p q : Platform) (k : Nat), p.step k = .next q → q.length = p.length ∧ ∀ j, j ≠ k → q[j]? = p[j]?) ∧
  (∀ (p : Platform) (addr : Nat) (a : HostAccess) (j : Nat) (x : BlockInstance), p[j]? = some x →
    (x.holds addr = false → (p.post addr a)[j]? = some x) ∧
    (x.holds addr = true → (p.post addr a)[j]? =
      some { x with state := { x.state with script := x.state.script ++ [a.event (addr - x.base)] } })) ∧
  (∀ (p : Platform) (addr j k : Nat) (x y : BlockInstance), p.wf → p[j]? = some x → p[k]? = some y →
    x.holds addr = true → y.holds addr = true → j = k)
end

