-- ==== Sys2Proof/Laws/Aes.lean ====
section
/-! SUPPORT. Each round transformation of AES undoes its inverse (R105 to R109), and the field multiplication is linear. -/

namespace Sys2Proof.Machine

/-! ### The field (R105) -/

theorem xtime_xor (a b : Byte) : xtime (a ^^^ b) = xtime a ^^^ xtime b := by
  have h : ∀ (a b : Byte) (p q : Bool),
      ((a ^^^ b) <<< 1) ^^^ (if (p ^^ q) = true then 0x1B#8 else 0x00#8) =
        ((a <<< 1) ^^^ (if p = true then 0x1B#8 else 0x00#8)) ^^^ ((b <<< 1) ^^^ (if q = true then 0x1B#8 else 0x00#8)) := by
    intro a b p q
    rw [BitVec.shiftLeft_xor_distrib]
    generalize a <<< 1 = x
    generalize b <<< 1 = y
    refine BitVec.eq_of_getLsbD_eq fun i hi => ?_
    cases p <;> cases q <;> simp only [BitVec.getLsbD_xor] <;>
      interval_cases i <;> simp
  unfold xtime
  rw [BitVec.getLsbD_xor, h]

theorem gmulLow_xor (n : Nat) (a b c : Byte) : gmulLow n (a ^^^ b) c = gmulLow n a c ^^^ gmulLow n b c := by
  induction n generalizing a b c with
  | zero => simp [gmulLow]
  | succ n ih =>
    simp only [gmulLow, xtime_xor, ih]
    cases c.getLsbD 0
    · simp
    · simp only [if_true]
      ac_rfl

/-- Multiplication is linear in its first factor. -/
theorem gmul_xor (a b c : Byte) : gmul (a ^^^ b) c = gmul a c ^^^ gmul b c := gmulLow_xor 8 a b c

/-! ### The transformations and their inverses -/

@[simp] theorem Col.xor_xor_cancel (a b : Col) : (a.xor b).xor b = a := by
  simp [Col.xor]

/-- `AddRoundKey` twice with one round key changes nothing. -/
@[simp] theorem Block.xor_xor_cancel (a b : Block) : (a.xor b).xor b = a := by
  simp [Block.xor]

theorem Block.xor_comm (a b : Block) : a.xor b = b.xor a := by
  simp [Block.xor, Col.xor, BitVec.xor_comm]

theorem invSbox_sbox (a : Byte) : invSbox (sbox a) = a := by
  have h : ∀ a : Byte, invSbox (sbox a) = a := by decide +kernel
  exact h a

theorem sbox_invSbox (a : Byte) : sbox (invSbox a) = a := by
  have h : ∀ a : Byte, sbox (invSbox a) = a := by decide +kernel
  exact h a

@[simp] theorem invSubBytes_subBytes (s : Block) : invSubBytes (subBytes s) = s := by
  simp [invSubBytes, subBytes, Block.map, Col.map, invSbox_sbox]

@[simp] theorem subBytes_invSubBytes (s : Block) : subBytes (invSubBytes s) = s := by
  simp [invSubBytes, subBytes, Block.map, Col.map, sbox_invSbox]

@[simp] theorem invShiftRows_shiftRows (s : Block) : invShiftRows (shiftRows s) = s := rfl

@[simp] theorem shiftRows_invShiftRows (s : Block) : shiftRows (invShiftRows s) = s := rfl

/-- The product of the matrices of `MixColumns` and `InvMixColumns` (R109) is the identity, applied to one byte x: in
either order of the two, row 0 of it (the matrices are circulant, so the other rows are the same four sums). -/
theorem mix_invMix_byte : ∀ x : Byte,
    (gmul (gmul x 2) 14 ^^^ (gmul (gmul x 1) 11 ^^^ (gmul (gmul x 1) 13 ^^^ gmul (gmul x 3) 9)) = x ∧
      gmul (gmul x 3) 14 ^^^ (gmul (gmul x 2) 11 ^^^ (gmul (gmul x 1) 13 ^^^ gmul (gmul x 1) 9)) = 0 ∧
      gmul (gmul x 1) 14 ^^^ (gmul (gmul x 3) 11 ^^^ (gmul (gmul x 2) 13 ^^^ gmul (gmul x 1) 9)) = 0 ∧
      gmul (gmul x 1) 14 ^^^ (gmul (gmul x 1) 11 ^^^ (gmul (gmul x 3) 13 ^^^ gmul (gmul x 2) 9)) = 0) ∧
    (gmul (gmul x 14) 2 ^^^ (gmul (gmul x 9) 3 ^^^ (gmul (gmul x 13) 1 ^^^ gmul (gmul x 11) 1)) = x ∧
      gmul (gmul x 11) 2 ^^^ (gmul (gmul x 14) 3 ^^^ (gmul (gmul x 9) 1 ^^^ gmul (gmul x 13) 1)) = 0 ∧
      gmul (gmul x 13) 2 ^^^ (gmul (gmul x 11) 3 ^^^ (gmul (gmul x 14) 1 ^^^ gmul (gmul x 9) 1)) = 0 ∧
      gmul (gmul x 9) 2 ^^^ (gmul (gmul x 13) 3 ^^^ (gmul (gmul x 11) 1 ^^^ gmul (gmul x 14) 1)) = 0) := by
  decide +kernel

/-- Four sums of four terms, regrouped by columns. -/
theorem xor_transpose (a b c d e f g h i j k l m n o p : Byte) :
    (a ^^^ (b ^^^ (c ^^^ d))) ^^^ ((e ^^^ (f ^^^ (g ^^^ h))) ^^^
        ((i ^^^ (j ^^^ (k ^^^ l))) ^^^ (m ^^^ (n ^^^ (o ^^^ p))))) =
      (a ^^^ (e ^^^ (i ^^^ m))) ^^^ ((b ^^^ (f ^^^ (j ^^^ n))) ^^^
        ((c ^^^ (g ^^^ (k ^^^ o))) ^^^ (d ^^^ (h ^^^ (l ^^^ p))))) := by
  ac_rfl

theorem xor_rotate1 (w x y z : Byte) : w ^^^ (x ^^^ (y ^^^ z)) = x ^^^ (y ^^^ (z ^^^ w)) := by ac_rfl

theorem xor_rotate2 (w x y z : Byte) : w ^^^ (x ^^^ (y ^^^ z)) = y ^^^ (z ^^^ (w ^^^ x)) := by ac_rfl

theorem xor_rotate3 (w x y z : Byte) : w ^^^ (x ^^^ (y ^^^ z)) = z ^^^ (w ^^^ (x ^^^ y)) := by ac_rfl

theorem invMixColumn_mixColumn (a : Col) : invMixColumn (mixColumn a) = a := by
  obtain ⟨a0, a1, a2, a3⟩ := a
  have h := fun x => (mix_invMix_byte x).1
  simp only [invMixColumn, mixColumn, mixByte, gmul_xor]
  congr 1
  · rw [xor_transpose]
    rw [(h a0).1, (h a1).2.1, (h a2).2.2.1, (h a3).2.2.2]
    simp
  · rw [xor_transpose]
    rw [xor_rotate1 (gmul (gmul a0 2) 9), xor_rotate1 (gmul (gmul a1 3) 9),
      xor_rotate1 (gmul (gmul a2 1) 9), xor_rotate1 (gmul (gmul a3 1) 9)]
    rw [(h a0).2.2.2, (h a1).1, (h a2).2.1, (h a3).2.2.1]
    simp
  · rw [xor_transpose]
    rw [xor_rotate2 (gmul (gmul a0 2) 13), xor_rotate2 (gmul (gmul a1 3) 13),
      xor_rotate2 (gmul (gmul a2 1) 13), xor_rotate2 (gmul (gmul a3 1) 13)]
    rw [(h a0).2.2.1, (h a1).2.2.2, (h a2).1, (h a3).2.1]
    simp
  · rw [xor_transpose]
    rw [xor_rotate3 (gmul (gmul a0 2) 11), xor_rotate3 (gmul (gmul a1 3) 11),
      xor_rotate3 (gmul (gmul a2 1) 11), xor_rotate3 (gmul (gmul a3 1) 11)]
    rw [(h a0).2.1, (h a1).2.2.1, (h a2).2.2.2, (h a3).1]
    simp

theorem mixColumn_invMixColumn (a : Col) : mixColumn (invMixColumn a) = a := by
  obtain ⟨a0, a1, a2, a3⟩ := a
  have h := fun x => (mix_invMix_byte x).2
  simp only [invMixColumn, mixColumn, mixByte, gmul_xor]
  congr 1
  · rw [xor_transpose]
    rw [(h a0).1, (h a1).2.1, (h a2).2.2.1, (h a3).2.2.2]
    simp
  · rw [xor_transpose]
    rw [xor_rotate1 (gmul (gmul a0 14) 1), xor_rotate1 (gmul (gmul a1 11) 1),
      xor_rotate1 (gmul (gmul a2 13) 1), xor_rotate1 (gmul (gmul a3 9) 1)]
    rw [(h a0).2.2.2, (h a1).1, (h a2).2.1, (h a3).2.2.1]
    simp
  · rw [xor_transpose]
    rw [xor_rotate2 (gmul (gmul a0 14) 1), xor_rotate2 (gmul (gmul a1 11) 1),
      xor_rotate2 (gmul (gmul a2 13) 1), xor_rotate2 (gmul (gmul a3 9) 1)]
    rw [(h a0).2.2.1, (h a1).2.2.2, (h a2).1, (h a3).2.1]
    simp
  · rw [xor_transpose]
    rw [xor_rotate3 (gmul (gmul a0 14) 3), xor_rotate3 (gmul (gmul a1 11) 3),
      xor_rotate3 (gmul (gmul a2 13) 3), xor_rotate3 (gmul (gmul a3 9) 3)]
    rw [(h a0).2.1, (h a1).2.2.1, (h a2).2.2.2, (h a3).1]
    simp

@[simp] theorem invMixColumns_mixColumns (s : Block) : invMixColumns (mixColumns s) = s := by
  simp [invMixColumns, mixColumns, Block.map, invMixColumn_mixColumn]

@[simp] theorem mixColumns_invMixColumns (s : Block) : mixColumns (invMixColumns s) = s := by
  simp [invMixColumns, mixColumns, Block.map, mixColumn_invMixColumn]

end Sys2Proof.Machine
end

