-- ==== Sys2Proof/Laws/Memory.lean ====
section
/-! SUPPORT. FBUF as a memory: read after write, the canonical form is kept, and what a span holds. -/

namespace Sys2Proof.Machine

@[simp] theorem Memory.read_nil (a : Nat) : Memory.read [] a = none := rfl

theorem Memory.read_cons (c : Host.Cell) (m : Memory) (a : Nat) :
    Memory.read (c :: m) a = if c.1 = a then some c.2 else m.read a := rfl

/-- Read after insert: the byte put there, and every other byte as before, in any list whose indices rise. -/
theorem Memory.read_insert (m : Memory) (i : Nat) (b : Byte) (a : Nat)
    (h : m.Pairwise fun c d => c.1 < d.1) : (m.insert i b).read a = if a = i then some b else m.read a := by
  induction m with
  | nil => simp [Memory.insert, Memory.read_cons, eq_comm]
  | cons c cs ih =>
    have hc := List.pairwise_cons.mp h
    simp only [Memory.insert]
    split
    · by_cases ha : a = i
      · simp [Memory.read_cons, ha]
      · rw [Memory.read_cons, if_neg (fun h => ha h.symm), if_neg ha]
    · split
      · rename_i heq
        by_cases ha : a = i
        · simp [Memory.read_cons, ha]
        · rw [Memory.read_cons, if_neg (fun h => ha h.symm), if_neg ha, Memory.read_cons,
            if_neg (fun h => ha (h.symm.trans heq))]
      · rename_i heq
        rw [Memory.read_cons, ih hc.2, Memory.read_cons]
        by_cases ha : a = i
        · rw [if_neg (fun h => heq (h.trans ha)), if_pos ha, if_pos ha]
        · rw [if_neg ha, if_neg ha]

theorem Memory.mem_insert (m : Memory) (i : Nat) (b : Byte) (c : Host.Cell) (h : c ∈ m.insert i b) :
    c = (i, b) ∨ c ∈ m := by
  induction m with
  | nil => simpa [Memory.insert] using h
  | cons d ds ih =>
    simp only [Memory.insert] at h
    split at h
    · simpa using h
    · split at h
      · rcases List.mem_cons.mp h with h | h
        · exact .inl h
        · exact .inr (List.mem_cons_of_mem _ h)
      · rcases List.mem_cons.mp h with h | h
        · exact .inr (h ▸ List.mem_cons_self)
        · exact (ih h).imp id (List.mem_cons_of_mem _)

theorem Memory.pairwise_insert (m : Memory) (i : Nat) (b : Byte) (h : m.Pairwise fun c d => c.1 < d.1) :
    (m.insert i b).Pairwise fun c d => c.1 < d.1 := by
  induction m with
  | nil => simp [Memory.insert]
  | cons c cs ih =>
    have hc := List.pairwise_cons.mp h
    simp only [Memory.insert]
    split
    · rename_i hlt
      refine List.pairwise_cons.mpr ⟨fun d hd => ?_, h⟩
      rcases List.mem_cons.mp hd with rfl | hd
      · exact hlt
      · exact Nat.lt_trans hlt (hc.1 d hd)
    · split
      · rename_i heq
        exact List.pairwise_cons.mpr ⟨fun d hd => heq ▸ hc.1 d hd, hc.2⟩
      · rename_i hlt hne
        refine List.pairwise_cons.mpr ⟨fun d hd => ?_, ih hc.2⟩
        rcases Memory.mem_insert cs i b d hd with rfl | hd
        · exact Nat.lt_of_le_of_ne (Nat.le_of_not_lt hlt) hne
        · exact hc.1 d hd

/-- One write keeps the canonical form. -/
theorem Memory.write_wf (m : Memory) (i : Nat) (b : Byte) (h : m.wf) : (m.write i b).wf := by
  unfold Memory.write
  split
  · rename_i hi
    refine ⟨Memory.pairwise_insert m i b h.1, fun c hc => ?_⟩
    rcases Memory.mem_insert m i b c hc with rfl | hc
    · exact ⟨hi, by simp [Memory.unlisted]⟩
    · exact h.2 c hc
  · exact h

/-- Writing a span keeps the canonical form. -/
theorem Memory.writeSpan_wf (S : Bytes) (m : Memory) (off : Nat) (h : m.wf) : (m.writeSpan off S).wf := by
  induction S generalizing m off with
  | nil => exact h
  | cons b bs ih => exact ih _ _ (Memory.write_wf m off b h)

theorem Memory.read_write (m : Memory) (i : Nat) (b : Byte) (a : Nat) (h : m.wf) (hi : i < 256) :
    (m.write i b).read a = if a = i then some b else m.read a := by
  simp [Memory.write, Config.fbufSize, hi, Memory.read_insert m i b a h.1]

/-- A byte outside a span reads as before the span was written. -/
theorem Memory.read_writeSpan_outside (S : Bytes) (m : Memory) (off a : Nat) (h : m.wf) (hfit : off + S.length ≤ 256)
    (ha : a < off ∨ off + S.length ≤ a) : (m.writeSpan off S).read a = m.read a := by
  induction S generalizing m off with
  | nil => rfl
  | cons b bs ih =>
    simp only [List.length_cons] at hfit ha
    rw [Memory.writeSpan, ih _ _ (Memory.write_wf m off b h) (by omega) (by omega),
      Memory.read_write m off b a h (by omega), if_neg (by omega)]

/-- A byte inside a span reads as the span was written. -/
theorem Memory.read_writeSpan_inside (S : Bytes) (m : Memory) (off k : Nat) (h : m.wf) (hfit : off + S.length ≤ 256)
    (hk : k < S.length) : (m.writeSpan off S).read (off + k) = some S[k] := by
  induction S generalizing m off k with
  | nil => simp at hk
  | cons b bs ih =>
    simp only [List.length_cons] at hfit
    cases k with
    | zero =>
      rw [Memory.writeSpan, Memory.read_writeSpan_outside bs _ _ _ (Memory.write_wf m off b h) (by omega) (by omega),
        Memory.read_write m off b _ h (by omega)]
      simp
    | succ k =>
      have := ih (m.write off b) (off + 1) k (Memory.write_wf m off b h) (by omega) (by simpa using hk)
      simpa [Memory.writeSpan, Nat.add_assoc, Nat.add_comm 1 k] using this

/-- After a span is written, it holds what was written. -/
theorem Memory.holds_writeSpan (S : Bytes) (m : Memory) (off : Nat) (h : m.wf) (hfit : off + S.length ≤ 256) :
    (m.writeSpan off S).Holds off S := fun k => Memory.read_writeSpan_inside S m off k h hfit k.isLt

/-- Reading a span gives S exactly when the span holds S. -/
theorem Memory.readSpan_eq_some_iff (m : Memory) (off n : Nat) (S : Bytes) :
    m.readSpan off n = some S ↔ S.length = n ∧ m.Holds off S := by
  induction n generalizing off S with
  | zero =>
    simp only [Memory.readSpan, Option.some.injEq, List.length_eq_zero_iff]
    constructor
    · rintro rfl
      exact ⟨rfl, fun k => absurd k.isLt (by simp)⟩
    · exact fun h => h.1.symm
  | succ n ih =>
    simp only [Memory.readSpan]
    cases hb : m.read off with
    | none =>
      simp only [reduceCtorEq, false_iff, not_and]
      intro hl hh
      have := hh ⟨0, by omega⟩
      simp [hb] at this
    | some b =>
      cases hs : m.readSpan (off + 1) n with
      | none =>
        simp only [reduceCtorEq, false_iff, not_and]
        intro hl hh
        cases S with
        | nil => simp at hl
        | cons c cs =>
          have := (ih (off + 1) cs).mpr ⟨by simpa using hl, fun k => by
            have := hh ⟨k + 1, by simp⟩
            simpa [Nat.add_assoc, Nat.add_comm 1] using this⟩
          rw [hs] at this
          cases this
      | some bs =>
        simp only [Option.some.injEq]
        obtain ⟨hl, hh⟩ := (ih (off + 1) bs).mp hs
        constructor
        · rintro rfl
          refine ⟨by simp [hl], fun k => ?_⟩
          obtain ⟨k, hk⟩ := k
          cases k with
          | zero => simpa using hb
          | succ k =>
            have := hh ⟨k, by simpa using hk⟩
            simpa [Nat.add_assoc, Nat.add_comm 1] using this
        · rintro ⟨hl', hh'⟩
          cases S with
          | nil => simp at hl'
          | cons c cs =>
            have hc : b = c := by
              have := hh' ⟨0, by simp⟩
              simpa [hb] using this
            have := (ih (off + 1) cs).mpr ⟨by simpa using hl', fun k => by
              have := hh' ⟨k + 1, by simp⟩
              simpa [Nat.add_assoc, Nat.add_comm 1] using this⟩
            rw [hs] at this
            cases this
            rw [hc]

/-- A span cannot be read exactly when one of its bytes is unwritten. -/
theorem Memory.readSpan_eq_none_iff (m : Memory) (off n : Nat) :
    m.readSpan off n = none ↔ ∃ k, k < n ∧ m.read (off + k) = none := by
  induction n generalizing off with
  | zero => simp [Memory.readSpan]
  | succ n ih =>
    simp only [Memory.readSpan]
    cases hb : m.read off with
    | none => simpa using ⟨0, by omega, by simpa using hb⟩
    | some b =>
      have key : (∃ k, k < n + 1 ∧ m.read (off + k) = none) ↔ ∃ k, k < n ∧ m.read (off + 1 + k) = none := by
        constructor
        · rintro ⟨k, hk, hr⟩
          cases k with
          | zero => simp [hb] at hr
          | succ k => exact ⟨k, by omega, by simpa [Nat.add_assoc, Nat.add_comm 1] using hr⟩
        · rintro ⟨k, hk, hr⟩
          exact ⟨k + 1, by omega, by simpa [Nat.add_assoc, Nat.add_comm 1] using hr⟩
      rw [key, ← ih]
      cases m.readSpan (off + 1) n <;> simp

/-! ### Byte order -/

/-- A word is the little-endian sum of its bytes (R50, R54). -/
theorem ofLe4_toNat (b0 b1 b2 b3 : Byte) :
    (ofLe4 b0 b1 b2 b3).toNat =
      b0.toNat + 2 ^ 8 * b1.toNat + 2 ^ 16 * b2.toNat + 2 ^ 24 * b3.toNat := by
  unfold ofLe4
  have h0 := b0.isLt
  have h1 := b1.isLt
  have h2 := b2.isLt
  have h3 := b3.isLt
  simp only [BitVec.toNat_append]
  rw [← Nat.shiftLeft_add_eq_or_of_lt (by omega), ← Nat.shiftLeft_add_eq_or_of_lt (by omega),
    ← Nat.shiftLeft_add_eq_or_of_lt (by omega)]
  simp only [Nat.shiftLeft_eq]
  omega

theorem bytesOfWord_length (wd : Width) (v : Word) : (bytesOfWord wd v).length = wd.bytes := by cases wd <;> rfl

/-- Byte k of what an access carries is `v[8k+7:8k]` (R65). -/
theorem bytesOfWord_get (wd : Width) (v : Word) (k : Nat) (hk : k < (bytesOfWord wd v).length) :
    (bytesOfWord wd v)[k] = v.extractLsb' (8 * k) 8 := by
  have : k < wd.bytes := by rw [bytesOfWord_length] at hk; exact hk
  cases wd <;> dsimp only [Width.bytes] at this <;> interval_cases k <;> rfl

end Sys2Proof.Machine
end

