-- ==== Sys2Proof/Laws/State.lean ====
section
/-! SUPPORT. One lemma per field per update of State, each true by definition, so that no later proof unfolds a record
update. -/

namespace Sys2Proof.Machine

variable (s : State)

/-! ### `State.launch` (R27) -/

@[simp] theorem State.launch_eng (w : Word) : (s.launch w).eng = .run w := rfl
@[simp] theorem State.launch_irqen (w : Word) : (s.launch w).irqen = s.irqen := rfl
@[simp] theorem State.launch_crcinv (w : Word) : (s.launch w).crcinv = s.crcinv := rfl
@[simp] theorem State.launch_done (w : Word) : (s.launch w).done = false := rfl
@[simp] theorem State.launch_berr (w : Word) : (s.launch w).berr = s.berr := rfl
@[simp] theorem State.launch_err (w : Word) : (s.launch w).err = .ok := rfl
@[simp] theorem State.launch_sent (w : Word) : (s.launch w).sent = false := rfl
@[simp] theorem State.launch_matched (w : Word) : (s.launch w).matched = false := rfl
@[simp] theorem State.launch_kve (w : Word) : (s.launch w).kve = s.kve := rfl
@[simp] theorem State.launch_kvm (w : Word) : (s.launch w).kvm = s.kvm := rfl
@[simp] theorem State.launch_kcw (w : Word) : (s.launch w).kcw = s.kcw := rfl
@[simp] theorem State.launch_cmdLast (w : Word) : (s.launch w).cmdLast = w := rfl
@[simp] theorem State.launch_result (w : Word) : (s.launch w).result = s.result := rfl
@[simp] theorem State.launch_kconf (w : Word) : (s.launch w).kconf = s.kconf := rfl
@[simp] theorem State.launch_kenc (w : Word) : (s.launch w).kenc = s.kenc := rfl
@[simp] theorem State.launch_kmac (w : Word) : (s.launch w).kmac = s.kmac := rfl
@[simp] theorem State.launch_hdr0 (w : Word) : (s.launch w).hdr0 = s.hdr0 := rfl
@[simp] theorem State.launch_hdr1 (w : Word) : (s.launch w).hdr1 = s.hdr1 := rfl
@[simp] theorem State.launch_cc (w : Word) : (s.launch w).cc = s.cc := rfl
@[simp] theorem State.launch_fn (w : Word) : (s.launch w).fn = s.fn := rfl
@[simp] theorem State.launch_sn (w : Word) : (s.launch w).sn = s.sn := rfl
@[simp] theorem State.launch_acc (w : Word) : (s.launch w).acc = s.acc := rfl
@[simp] theorem State.launch_mcl (w : Word) : (s.launch w).mcl = s.mcl := rfl
@[simp] theorem State.launch_mctr (w : Word) : (s.launch w).mctr = s.mctr := rfl
@[simp] theorem State.launch_expmac (w : Word) : (s.launch w).expmac = s.expmac := rfl
@[simp] theorem State.launch_mac (w : Word) : (s.launch w).mac = s.mac := rfl
@[simp] theorem State.launch_fbuf (w : Word) : (s.launch w).fbuf = s.fbuf := rfl
@[simp] theorem State.launch_irq (w : Word) : (s.launch w).irq = s.irq := rfl
@[simp] theorem State.launch_script (w : Word) : (s.launch w).script = s.script := rfl
@[simp] theorem State.launch_rdata (w : Word) : (s.launch w).rdata = s.rdata := rfl
@[simp] theorem State.launch_stopped (w : Word) : (s.launch w).stopped = s.stopped := rfl
@[simp] theorem State.launch_rst (w : Word) : (s.launch w).rst = s.rst := rfl

/-! ### `State.finish` (R142) -/

@[simp] theorem State.finish_eng (e : ErrCode) : (s.finish e).eng = .idle := rfl
@[simp] theorem State.finish_irqen (e : ErrCode) : (s.finish e).irqen = s.irqen := rfl
@[simp] theorem State.finish_crcinv (e : ErrCode) : (s.finish e).crcinv = s.crcinv := rfl
@[simp] theorem State.finish_done (e : ErrCode) : (s.finish e).done = true := rfl
@[simp] theorem State.finish_berr (e : ErrCode) : (s.finish e).berr = s.berr := rfl
@[simp] theorem State.finish_err (e : ErrCode) : (s.finish e).err = e := rfl
@[simp] theorem State.finish_sent (e : ErrCode) : (s.finish e).sent = s.sent := rfl
@[simp] theorem State.finish_matched (e : ErrCode) : (s.finish e).matched = s.matched := rfl
@[simp] theorem State.finish_kve (e : ErrCode) : (s.finish e).kve = s.kve := rfl
@[simp] theorem State.finish_kvm (e : ErrCode) : (s.finish e).kvm = s.kvm := rfl
@[simp] theorem State.finish_kcw (e : ErrCode) : (s.finish e).kcw = s.kcw := rfl
@[simp] theorem State.finish_cmdLast (e : ErrCode) : (s.finish e).cmdLast = s.cmdLast := rfl
@[simp] theorem State.finish_result (e : ErrCode) : (s.finish e).result = s.result := rfl
@[simp] theorem State.finish_kconf (e : ErrCode) : (s.finish e).kconf = s.kconf := rfl
@[simp] theorem State.finish_kenc (e : ErrCode) : (s.finish e).kenc = s.kenc := rfl
@[simp] theorem State.finish_kmac (e : ErrCode) : (s.finish e).kmac = s.kmac := rfl
@[simp] theorem State.finish_hdr0 (e : ErrCode) : (s.finish e).hdr0 = s.hdr0 := rfl
@[simp] theorem State.finish_hdr1 (e : ErrCode) : (s.finish e).hdr1 = s.hdr1 := rfl
@[simp] theorem State.finish_cc (e : ErrCode) : (s.finish e).cc = s.cc := rfl
@[simp] theorem State.finish_fn (e : ErrCode) : (s.finish e).fn = s.fn := rfl
@[simp] theorem State.finish_sn (e : ErrCode) : (s.finish e).sn = s.sn := rfl
@[simp] theorem State.finish_acc (e : ErrCode) : (s.finish e).acc = s.acc := rfl
@[simp] theorem State.finish_mcl (e : ErrCode) : (s.finish e).mcl = s.mcl := rfl
@[simp] theorem State.finish_mctr (e : ErrCode) : (s.finish e).mctr = s.mctr := rfl
@[simp] theorem State.finish_expmac (e : ErrCode) : (s.finish e).expmac = s.expmac := rfl
@[simp] theorem State.finish_mac (e : ErrCode) : (s.finish e).mac = s.mac := rfl
@[simp] theorem State.finish_fbuf (e : ErrCode) : (s.finish e).fbuf = s.fbuf := rfl
@[simp] theorem State.finish_irq (e : ErrCode) : (s.finish e).irq = s.irqen := rfl
@[simp] theorem State.finish_script (e : ErrCode) : (s.finish e).script = s.script := rfl
@[simp] theorem State.finish_rdata (e : ErrCode) : (s.finish e).rdata = s.rdata := rfl
@[simp] theorem State.finish_stopped (e : ErrCode) : (s.finish e).stopped = s.stopped := rfl
@[simp] theorem State.finish_rst (e : ErrCode) : (s.finish e).rst = s.rst := rfl

/-! ### `State.ackStatus` (R26) -/

@[simp] theorem State.ackStatus_eng (v : Word) : (s.ackStatus v).eng = s.eng := rfl
@[simp] theorem State.ackStatus_irqen (v : Word) : (s.ackStatus v).irqen = s.irqen := rfl
@[simp] theorem State.ackStatus_crcinv (v : Word) : (s.ackStatus v).crcinv = s.crcinv := rfl
@[simp] theorem State.ackStatus_done (v : Word) : (s.ackStatus v).done = (s.done && !v.getLsbD 1) := rfl
@[simp] theorem State.ackStatus_berr (v : Word) : (s.ackStatus v).berr = (s.berr && !v.getLsbD 2) := rfl
@[simp] theorem State.ackStatus_err (v : Word) : (s.ackStatus v).err = s.err := rfl
@[simp] theorem State.ackStatus_sent (v : Word) : (s.ackStatus v).sent = s.sent := rfl
@[simp] theorem State.ackStatus_matched (v : Word) : (s.ackStatus v).matched = s.matched := rfl
@[simp] theorem State.ackStatus_kve (v : Word) : (s.ackStatus v).kve = s.kve := rfl
@[simp] theorem State.ackStatus_kvm (v : Word) : (s.ackStatus v).kvm = s.kvm := rfl
@[simp] theorem State.ackStatus_kcw (v : Word) : (s.ackStatus v).kcw = s.kcw := rfl
@[simp] theorem State.ackStatus_cmdLast (v : Word) : (s.ackStatus v).cmdLast = s.cmdLast := rfl
@[simp] theorem State.ackStatus_result (v : Word) : (s.ackStatus v).result = s.result := rfl
@[simp] theorem State.ackStatus_kconf (v : Word) : (s.ackStatus v).kconf = s.kconf := rfl
@[simp] theorem State.ackStatus_kenc (v : Word) : (s.ackStatus v).kenc = s.kenc := rfl
@[simp] theorem State.ackStatus_kmac (v : Word) : (s.ackStatus v).kmac = s.kmac := rfl
@[simp] theorem State.ackStatus_hdr0 (v : Word) : (s.ackStatus v).hdr0 = s.hdr0 := rfl
@[simp] theorem State.ackStatus_hdr1 (v : Word) : (s.ackStatus v).hdr1 = s.hdr1 := rfl
@[simp] theorem State.ackStatus_cc (v : Word) : (s.ackStatus v).cc = s.cc := rfl
@[simp] theorem State.ackStatus_fn (v : Word) : (s.ackStatus v).fn = s.fn := rfl
@[simp] theorem State.ackStatus_sn (v : Word) : (s.ackStatus v).sn = s.sn := rfl
@[simp] theorem State.ackStatus_acc (v : Word) : (s.ackStatus v).acc = s.acc := rfl
@[simp] theorem State.ackStatus_mcl (v : Word) : (s.ackStatus v).mcl = s.mcl := rfl
@[simp] theorem State.ackStatus_mctr (v : Word) : (s.ackStatus v).mctr = s.mctr := rfl
@[simp] theorem State.ackStatus_expmac (v : Word) : (s.ackStatus v).expmac = s.expmac := rfl
@[simp] theorem State.ackStatus_mac (v : Word) : (s.ackStatus v).mac = s.mac := rfl
@[simp] theorem State.ackStatus_fbuf (v : Word) : (s.ackStatus v).fbuf = s.fbuf := rfl
@[simp] theorem State.ackStatus_irq (v : Word) : (s.ackStatus v).irq = s.irq := rfl
@[simp] theorem State.ackStatus_script (v : Word) : (s.ackStatus v).script = s.script := rfl
@[simp] theorem State.ackStatus_rdata (v : Word) : (s.ackStatus v).rdata = s.rdata := rfl
@[simp] theorem State.ackStatus_stopped (v : Word) : (s.ackStatus v).stopped = s.stopped := rfl
@[simp] theorem State.ackStatus_rst (v : Word) : (s.ackStatus v).rst = s.rst := rfl

/-! ### `State.busError` (R70) -/

@[simp] theorem State.busError_eng : (s.busError).eng = s.eng := rfl
@[simp] theorem State.busError_irqen : (s.busError).irqen = s.irqen := rfl
@[simp] theorem State.busError_crcinv : (s.busError).crcinv = s.crcinv := rfl
@[simp] theorem State.busError_done : (s.busError).done = s.done := rfl
@[simp] theorem State.busError_berr : (s.busError).berr = true := rfl
@[simp] theorem State.busError_err : (s.busError).err = s.err := rfl
@[simp] theorem State.busError_sent : (s.busError).sent = s.sent := rfl
@[simp] theorem State.busError_matched : (s.busError).matched = s.matched := rfl
@[simp] theorem State.busError_kve : (s.busError).kve = s.kve := rfl
@[simp] theorem State.busError_kvm : (s.busError).kvm = s.kvm := rfl
@[simp] theorem State.busError_kcw : (s.busError).kcw = s.kcw := rfl
@[simp] theorem State.busError_cmdLast : (s.busError).cmdLast = s.cmdLast := rfl
@[simp] theorem State.busError_result : (s.busError).result = s.result := rfl
@[simp] theorem State.busError_kconf : (s.busError).kconf = s.kconf := rfl
@[simp] theorem State.busError_kenc : (s.busError).kenc = s.kenc := rfl
@[simp] theorem State.busError_kmac : (s.busError).kmac = s.kmac := rfl
@[simp] theorem State.busError_hdr0 : (s.busError).hdr0 = s.hdr0 := rfl
@[simp] theorem State.busError_hdr1 : (s.busError).hdr1 = s.hdr1 := rfl
@[simp] theorem State.busError_cc : (s.busError).cc = s.cc := rfl
@[simp] theorem State.busError_fn : (s.busError).fn = s.fn := rfl
@[simp] theorem State.busError_sn : (s.busError).sn = s.sn := rfl
@[simp] theorem State.busError_acc : (s.busError).acc = s.acc := rfl
@[simp] theorem State.busError_mcl : (s.busError).mcl = s.mcl := rfl
@[simp] theorem State.busError_mctr : (s.busError).mctr = s.mctr := rfl
@[simp] theorem State.busError_expmac : (s.busError).expmac = s.expmac := rfl
@[simp] theorem State.busError_mac : (s.busError).mac = s.mac := rfl
@[simp] theorem State.busError_fbuf : (s.busError).fbuf = s.fbuf := rfl
@[simp] theorem State.busError_irq : (s.busError).irq = s.irq := rfl
@[simp] theorem State.busError_script : (s.busError).script = s.script := rfl
@[simp] theorem State.busError_rdata : (s.busError).rdata = s.rdata := rfl
@[simp] theorem State.busError_stopped : (s.busError).stopped = s.stopped := rfl
@[simp] theorem State.busError_rst : (s.busError).rst = s.rst := rfl

/-! ### `State.refreshIrq` (R46) -/

@[simp] theorem State.refreshIrq_eng : (s.refreshIrq).eng = s.eng := rfl
@[simp] theorem State.refreshIrq_irqen : (s.refreshIrq).irqen = s.irqen := rfl
@[simp] theorem State.refreshIrq_crcinv : (s.refreshIrq).crcinv = s.crcinv := rfl
@[simp] theorem State.refreshIrq_done : (s.refreshIrq).done = s.done := rfl
@[simp] theorem State.refreshIrq_berr : (s.refreshIrq).berr = s.berr := rfl
@[simp] theorem State.refreshIrq_err : (s.refreshIrq).err = s.err := rfl
@[simp] theorem State.refreshIrq_sent : (s.refreshIrq).sent = s.sent := rfl
@[simp] theorem State.refreshIrq_matched : (s.refreshIrq).matched = s.matched := rfl
@[simp] theorem State.refreshIrq_kve : (s.refreshIrq).kve = s.kve := rfl
@[simp] theorem State.refreshIrq_kvm : (s.refreshIrq).kvm = s.kvm := rfl
@[simp] theorem State.refreshIrq_kcw : (s.refreshIrq).kcw = s.kcw := rfl
@[simp] theorem State.refreshIrq_cmdLast : (s.refreshIrq).cmdLast = s.cmdLast := rfl
@[simp] theorem State.refreshIrq_result : (s.refreshIrq).result = s.result := rfl
@[simp] theorem State.refreshIrq_kconf : (s.refreshIrq).kconf = s.kconf := rfl
@[simp] theorem State.refreshIrq_kenc : (s.refreshIrq).kenc = s.kenc := rfl
@[simp] theorem State.refreshIrq_kmac : (s.refreshIrq).kmac = s.kmac := rfl
@[simp] theorem State.refreshIrq_hdr0 : (s.refreshIrq).hdr0 = s.hdr0 := rfl
@[simp] theorem State.refreshIrq_hdr1 : (s.refreshIrq).hdr1 = s.hdr1 := rfl
@[simp] theorem State.refreshIrq_cc : (s.refreshIrq).cc = s.cc := rfl
@[simp] theorem State.refreshIrq_fn : (s.refreshIrq).fn = s.fn := rfl
@[simp] theorem State.refreshIrq_sn : (s.refreshIrq).sn = s.sn := rfl
@[simp] theorem State.refreshIrq_acc : (s.refreshIrq).acc = s.acc := rfl
@[simp] theorem State.refreshIrq_mcl : (s.refreshIrq).mcl = s.mcl := rfl
@[simp] theorem State.refreshIrq_mctr : (s.refreshIrq).mctr = s.mctr := rfl
@[simp] theorem State.refreshIrq_expmac : (s.refreshIrq).expmac = s.expmac := rfl
@[simp] theorem State.refreshIrq_mac : (s.refreshIrq).mac = s.mac := rfl
@[simp] theorem State.refreshIrq_fbuf : (s.refreshIrq).fbuf = s.fbuf := rfl
@[simp] theorem State.refreshIrq_irq : (s.refreshIrq).irq = (s.irqen && s.done) := rfl
@[simp] theorem State.refreshIrq_script : (s.refreshIrq).script = s.script := rfl
@[simp] theorem State.refreshIrq_rdata : (s.refreshIrq).rdata = s.rdata := rfl
@[simp] theorem State.refreshIrq_stopped : (s.refreshIrq).stopped = s.stopped := rfl
@[simp] theorem State.refreshIrq_rst : (s.refreshIrq).rst = s.rst := rfl

/-! ### `State.dropDerivedKeys` (R29, R136) -/

@[simp] theorem State.dropDerivedKeys_eng : (s.dropDerivedKeys).eng = s.eng := rfl
@[simp] theorem State.dropDerivedKeys_irqen : (s.dropDerivedKeys).irqen = s.irqen := rfl
@[simp] theorem State.dropDerivedKeys_crcinv : (s.dropDerivedKeys).crcinv = s.crcinv := rfl
@[simp] theorem State.dropDerivedKeys_done : (s.dropDerivedKeys).done = s.done := rfl
@[simp] theorem State.dropDerivedKeys_berr : (s.dropDerivedKeys).berr = s.berr := rfl
@[simp] theorem State.dropDerivedKeys_err : (s.dropDerivedKeys).err = s.err := rfl
@[simp] theorem State.dropDerivedKeys_sent : (s.dropDerivedKeys).sent = s.sent := rfl
@[simp] theorem State.dropDerivedKeys_matched : (s.dropDerivedKeys).matched = s.matched := rfl
@[simp] theorem State.dropDerivedKeys_kve : (s.dropDerivedKeys).kve = false := rfl
@[simp] theorem State.dropDerivedKeys_kvm : (s.dropDerivedKeys).kvm = false := rfl
@[simp] theorem State.dropDerivedKeys_kcw : (s.dropDerivedKeys).kcw = s.kcw := rfl
@[simp] theorem State.dropDerivedKeys_cmdLast : (s.dropDerivedKeys).cmdLast = s.cmdLast := rfl
@[simp] theorem State.dropDerivedKeys_result : (s.dropDerivedKeys).result = s.result := rfl
@[simp] theorem State.dropDerivedKeys_kconf : (s.dropDerivedKeys).kconf = s.kconf := rfl
@[simp] theorem State.dropDerivedKeys_kenc : (s.dropDerivedKeys).kenc = .zero := rfl
@[simp] theorem State.dropDerivedKeys_kmac : (s.dropDerivedKeys).kmac = .zero := rfl
@[simp] theorem State.dropDerivedKeys_hdr0 : (s.dropDerivedKeys).hdr0 = s.hdr0 := rfl
@[simp] theorem State.dropDerivedKeys_hdr1 : (s.dropDerivedKeys).hdr1 = s.hdr1 := rfl
@[simp] theorem State.dropDerivedKeys_cc : (s.dropDerivedKeys).cc = s.cc := rfl
@[simp] theorem State.dropDerivedKeys_fn : (s.dropDerivedKeys).fn = s.fn := rfl
@[simp] theorem State.dropDerivedKeys_sn : (s.dropDerivedKeys).sn = s.sn := rfl
@[simp] theorem State.dropDerivedKeys_acc : (s.dropDerivedKeys).acc = s.acc := rfl
@[simp] theorem State.dropDerivedKeys_mcl : (s.dropDerivedKeys).mcl = s.mcl := rfl
@[simp] theorem State.dropDerivedKeys_mctr : (s.dropDerivedKeys).mctr = s.mctr := rfl
@[simp] theorem State.dropDerivedKeys_expmac : (s.dropDerivedKeys).expmac = s.expmac := rfl
@[simp] theorem State.dropDerivedKeys_mac : (s.dropDerivedKeys).mac = s.mac := rfl
@[simp] theorem State.dropDerivedKeys_fbuf : (s.dropDerivedKeys).fbuf = s.fbuf := rfl
@[simp] theorem State.dropDerivedKeys_irq : (s.dropDerivedKeys).irq = s.irq := rfl
@[simp] theorem State.dropDerivedKeys_script : (s.dropDerivedKeys).script = s.script := rfl
@[simp] theorem State.dropDerivedKeys_rdata : (s.dropDerivedKeys).rdata = s.rdata := rfl
@[simp] theorem State.dropDerivedKeys_stopped : (s.dropDerivedKeys).stopped = s.stopped := rfl
@[simp] theorem State.dropDerivedKeys_rst : (s.dropDerivedKeys).rst = s.rst := rfl

/-! ### `State.writeKconf` (R29) -/

@[simp] theorem State.writeKconf_eng (j : Fin 4) (v : Word) : (s.writeKconf j v).eng = s.eng := rfl
@[simp] theorem State.writeKconf_irqen (j : Fin 4) (v : Word) : (s.writeKconf j v).irqen = s.irqen := rfl
@[simp] theorem State.writeKconf_crcinv (j : Fin 4) (v : Word) : (s.writeKconf j v).crcinv = s.crcinv := rfl
@[simp] theorem State.writeKconf_done (j : Fin 4) (v : Word) : (s.writeKconf j v).done = s.done := rfl
@[simp] theorem State.writeKconf_berr (j : Fin 4) (v : Word) : (s.writeKconf j v).berr = s.berr := rfl
@[simp] theorem State.writeKconf_err (j : Fin 4) (v : Word) : (s.writeKconf j v).err = s.err := rfl
@[simp] theorem State.writeKconf_sent (j : Fin 4) (v : Word) : (s.writeKconf j v).sent = s.sent := rfl
@[simp] theorem State.writeKconf_matched (j : Fin 4) (v : Word) : (s.writeKconf j v).matched = s.matched := rfl
@[simp] theorem State.writeKconf_kve (j : Fin 4) (v : Word) : (s.writeKconf j v).kve = false := rfl
@[simp] theorem State.writeKconf_kvm (j : Fin 4) (v : Word) : (s.writeKconf j v).kvm = false := rfl
@[simp] theorem State.writeKconf_kcw (j : Fin 4) (v : Word) : (s.writeKconf j v).kcw = s.kcw ||| (1#4 <<< j.val) := rfl
@[simp] theorem State.writeKconf_cmdLast (j : Fin 4) (v : Word) : (s.writeKconf j v).cmdLast = s.cmdLast := rfl
@[simp] theorem State.writeKconf_result (j : Fin 4) (v : Word) : (s.writeKconf j v).result = s.result := rfl
@[simp] theorem State.writeKconf_kconf (j : Fin 4) (v : Word) : (s.writeKconf j v).kconf = s.kconf.set j v := rfl
@[simp] theorem State.writeKconf_kenc (j : Fin 4) (v : Word) : (s.writeKconf j v).kenc = .zero := rfl
@[simp] theorem State.writeKconf_kmac (j : Fin 4) (v : Word) : (s.writeKconf j v).kmac = .zero := rfl
@[simp] theorem State.writeKconf_hdr0 (j : Fin 4) (v : Word) : (s.writeKconf j v).hdr0 = s.hdr0 := rfl
@[simp] theorem State.writeKconf_hdr1 (j : Fin 4) (v : Word) : (s.writeKconf j v).hdr1 = s.hdr1 := rfl
@[simp] theorem State.writeKconf_cc (j : Fin 4) (v : Word) : (s.writeKconf j v).cc = s.cc := rfl
@[simp] theorem State.writeKconf_fn (j : Fin 4) (v : Word) : (s.writeKconf j v).fn = s.fn := rfl
@[simp] theorem State.writeKconf_sn (j : Fin 4) (v : Word) : (s.writeKconf j v).sn = s.sn := rfl
@[simp] theorem State.writeKconf_acc (j : Fin 4) (v : Word) : (s.writeKconf j v).acc = s.acc := rfl
@[simp] theorem State.writeKconf_mcl (j : Fin 4) (v : Word) : (s.writeKconf j v).mcl = s.mcl := rfl
@[simp] theorem State.writeKconf_mctr (j : Fin 4) (v : Word) : (s.writeKconf j v).mctr = s.mctr := rfl
@[simp] theorem State.writeKconf_expmac (j : Fin 4) (v : Word) : (s.writeKconf j v).expmac = s.expmac := rfl
@[simp] theorem State.writeKconf_mac (j : Fin 4) (v : Word) : (s.writeKconf j v).mac = s.mac := rfl
@[simp] theorem State.writeKconf_fbuf (j : Fin 4) (v : Word) : (s.writeKconf j v).fbuf = s.fbuf := rfl
@[simp] theorem State.writeKconf_irq (j : Fin 4) (v : Word) : (s.writeKconf j v).irq = s.irq := rfl
@[simp] theorem State.writeKconf_script (j : Fin 4) (v : Word) : (s.writeKconf j v).script = s.script := rfl
@[simp] theorem State.writeKconf_rdata (j : Fin 4) (v : Word) : (s.writeKconf j v).rdata = s.rdata := rfl
@[simp] theorem State.writeKconf_stopped (j : Fin 4) (v : Word) : (s.writeKconf j v).stopped = s.stopped := rfl
@[simp] theorem State.writeKconf_rst (j : Fin 4) (v : Word) : (s.writeKconf j v).rst = s.rst := rfl

/-! ### The computed bits -/

@[simp] theorem State.busy_idle (h : s.eng = .idle) : s.busy = false := by simp [State.busy, h]

@[simp] theorem State.busy_run (w : Word) (h : s.eng = .run w) : s.busy = true := by simp [State.busy, h]

theorem State.busy_eq_true_iff : s.busy = true ↔ ∃ w, s.eng = .run w := by
  unfold State.busy
  cases s.eng <;> simp

@[simp] theorem State.kvc_finish (e : ErrCode) : (s.finish e).kvc = s.kvc := rfl

@[simp] theorem State.kvc_refreshIrq : s.refreshIrq.kvc = s.kvc := rfl

@[simp] theorem State.busy_finish (e : ErrCode) : (s.finish e).busy = false := rfl

@[simp] theorem State.busy_launch (w : Word) : (s.launch w).busy = true := rfl

@[simp] theorem State.busy_refreshIrq : s.refreshIrq.busy = s.busy := rfl

@[simp] theorem State.busy_ackStatus (v : Word) : (s.ackStatus v).busy = s.busy := rfl

@[simp] theorem State.busy_busError : s.busError.busy = s.busy := rfl

end Sys2Proof.Machine
end

