-- ==== Sys2Proof/Laws/Ops.lean ====
section
/-! SUPPORT. One lemma per shared operation that says what it can answer: the pre-checks, the span, the host accesses. -/

namespace Sys2Proof.Machine

/-! ### The pre-checks and the span -/

theorem precheck_eq_none_iff (s : State) (i : Instr) :
    precheck s i = none ↔ i.wf = true ∧ spanLeaves i = false ∧ keyMissing s i = false := by
  unfold precheck
  cases i.wf <;> cases spanLeaves i <;> cases keyMissing s i <;> simp

/-- The code of a failed pre-check is `ILLEGAL`, `RANGE` or `NOKEY`, for the reason R139 gives. -/
theorem precheck_eq_some (s : State) (i : Instr) (e : ErrCode) (h : precheck s i = some e) :
    (e = .illegal ∧ i.wf = false) ∨ (e = .range ∧ spanLeaves i = true) ∨ (e = .nokey ∧ keyMissing s i = true) := by
  unfold precheck at h
  cases hw : i.wf <;> cases hs : spanLeaves i <;> cases hk : keyMissing s i <;> simp_all

theorem checked_of_none (s : State) (i : Instr) (body : Host.Outcome State Fault Refusal) (h : precheck s i = none) :
    checked s i body = body := by simp [checked, h]

theorem checked_of_some (s : State) (i : Instr) (body : Host.Outcome State Fault Refusal) (e : ErrCode)
    (h : precheck s i = some e) : checked s i body = .next (s.finish e) := by simp [checked, h]

/-- A command that answers a next state failed a pre-check and only finished, or its own pseudocode answered. -/
theorem checked_next (s t : State) (i : Instr) (body : Host.Outcome State Fault Refusal)
    (h : checked s i body = .next t) :
    (∃ e, precheck s i = some e ∧ t = s.finish e) ∨ (precheck s i = none ∧ body = .next t) := by
  unfold checked at h
  cases hp : precheck s i with
  | none => exact .inr ⟨rfl, by simpa [hp] using h⟩
  | some e => exact .inl ⟨e, rfl, by simpa [hp, eq_comm] using h⟩

theorem onSpan_of_holds (s : State) (off n : Nat) (S : Bytes) (body : Bytes → Host.Outcome State Fault Refusal)
    (hl : S.length = n) (h : s.fbuf.Holds off S) : onSpan s off n body = body S := by
  simp [onSpan, (Memory.readSpan_eq_some_iff s.fbuf off n S).mpr ⟨hl, h⟩]

/-- A span that answers a next state held some bytes, and the rest of the pseudocode ran on them. -/
theorem onSpan_next (s t : State) (off n : Nat) (body : Bytes → Host.Outcome State Fault Refusal)
    (h : onSpan s off n body = .next t) : ∃ S, S.length = n ∧ s.fbuf.Holds off S ∧ body S = .next t := by
  unfold onSpan at h
  cases hr : s.fbuf.readSpan off n with
  | none => simp [hr] at h
  | some S =>
    obtain ⟨hl, hh⟩ := (Memory.readSpan_eq_some_iff s.fbuf off n S).mp hr
    exact ⟨S, hl, hh, by simpa [hr] using h⟩

theorem onSpan_fault (s : State) (off n k : Nat) (body : Bytes → Host.Outcome State Fault Refusal) (hk : k < n)
    (h : s.fbuf.read (off + k) = none) : onSpan s off n body = .fault .unwrittenByte := by
  simp [onSpan, (Memory.readSpan_eq_none_iff s.fbuf off n).mpr ⟨k, hk, h⟩]

/-! ### The host accesses -/

/-- What a read inside the window can answer: a bus error, the value of a register, the bytes of FBUF, or the fault of an
unwritten byte. -/
theorem memRead_cases (s : State) (wd : Width) (off : Nat) (h : off < 512) :
    (readRefused s wd off = true ∧ memRead s wd off = .next (s.busError, 0#32)) ∨
      (readRefused s wd off = false ∧ off < 256 ∧ memRead s wd off = .next (s, s.regRead off)) ∨
      (readRefused s wd off = false ∧ 256 ≤ off ∧
        ((∃ S, S.length = wd.bytes ∧ s.fbuf.Holds (off - 256) S ∧ memRead s wd off = .next (s, wordOfBytes S)) ∨
          ((∃ k, k < wd.bytes ∧ s.fbuf.read (off - 256 + k) = none) ∧
            memRead s wd off = .fault .unwrittenByte))) := by
  unfold memRead
  rw [if_neg (by simp only [Config.windowSize]; omega)]
  cases hr : readRefused s wd off with
  | true => exact .inl ⟨rfl, by simp⟩
  | false =>
    by_cases ho : off < 256
    · exact .inr (.inl ⟨rfl, ho, by simp [Config.fbufBase, ho]⟩)
    · refine .inr (.inr ⟨rfl, by omega, ?_⟩)
      simp only [Bool.false_eq_true, if_false, Config.fbufBase, ho]
      cases hs : s.fbuf.readSpan (off - 256) wd.bytes with
      | none => exact .inr ⟨(Memory.readSpan_eq_none_iff _ _ _).mp hs, rfl⟩
      | some S =>
        obtain ⟨hl, hh⟩ := (Memory.readSpan_eq_some_iff _ _ _ _).mp hs
        exact .inl ⟨S, hl, hh, rfl⟩

/-- A host read that answers a next state changes `BERR`, `irq` and the data read, and nothing else. -/
theorem hostRead_next (s t : State) (wd : Width) (off : Nat) (h : hostRead s wd off = .next t) :
    off < 512 ∧ ∃ v, (readRefused s wd off = false ∧ t = { s.refreshIrq with rdata := some v }) ∨
      (readRefused s wd off = true ∧ v = 0#32 ∧ t = { s.busError.refreshIrq with rdata := some v }) := by
  have ho : off < 512 := by
    by_contra hc
    simp [hostRead, memRead, Config.windowSize, Nat.le_of_not_lt hc] at h
  refine ⟨ho, ?_⟩
  unfold hostRead at h
  rcases memRead_cases s wd off ho with ⟨hr, hm⟩ | ⟨hr, _, hm⟩ | ⟨hr, _, ⟨S, _, _, hm⟩ | ⟨_, hm⟩⟩ <;>
    simp only [hm, Host.Outcome.next.injEq, reduceCtorEq] at h
  · exact ⟨_, .inr ⟨hr, rfl, h.symm⟩⟩
  · exact ⟨_, .inl ⟨hr, h.symm⟩⟩
  · exact ⟨_, .inl ⟨hr, h.symm⟩⟩

theorem hostRead_refused (s : State) (wd : Width) (off : Nat) (ho : off < 512) (h : readRefused s wd off = true) :
    hostRead s wd off = .next { s.busError.refreshIrq with rdata := some 0#32 } := by
  unfold hostRead memRead
  simp [Config.windowSize, Nat.not_le.mpr ho, h]

theorem hostRead_reg (s : State) (wd : Width) (off : Nat) (ho : off < 256) (h : readRefused s wd off = false) :
    hostRead s wd off = .next { s.refreshIrq with rdata := some (s.regRead off) } := by
  unfold hostRead memRead
  simp [Config.windowSize, Config.fbufBase, ho, h, show ¬ 512 ≤ off by omega]

theorem hostRead_fbuf (s : State) (wd : Width) (off : Nat) (S : Bytes) (ho : 256 ≤ off) (ho' : off < 512)
    (h : readRefused s wd off = false) (hl : S.length = wd.bytes) (hS : s.fbuf.Holds (off - 256) S) :
    hostRead s wd off = .next { s.refreshIrq with rdata := some (wordOfBytes S) } := by
  unfold hostRead memRead
  simp [Config.windowSize, Config.fbufBase, h, Nat.not_le.mpr ho', Nat.not_lt.mpr ho,
    (Memory.readSpan_eq_some_iff _ _ _ _).mpr ⟨hl, hS⟩]

theorem hostWrite_refused (s : State) (wd : Width) (off : Nat) (v : Word) (ho : off < 512)
    (h : writeRefused s wd off = true) : hostWrite s wd off v = .next s.busError.refreshIrq := by
  unfold hostWrite memWrite
  simp [Config.windowSize, Nat.not_le.mpr ho, h]

theorem hostWrite_reg (s : State) (wd : Width) (off : Nat) (v : Word) (ho : off < 256)
    (h : writeRefused s wd off = false) : hostWrite s wd off v = .next (s.regWrite off v).refreshIrq := by
  unfold hostWrite memWrite
  simp [Config.windowSize, Config.fbufBase, ho, h, show ¬ 512 ≤ off by omega]

theorem hostWrite_fbuf (s : State) (wd : Width) (off : Nat) (v : Word) (ho : 256 ≤ off) (ho' : off < 512)
    (h : writeRefused s wd off = false) :
    hostWrite s wd off v =
      .next { s with fbuf := s.fbuf.writeSpan (off - 256) (bytesOfWord wd v) }.refreshIrq := by
  unfold hostWrite memWrite
  simp [Config.windowSize, Config.fbufBase, h, Nat.not_le.mpr ho', Nat.not_lt.mpr ho]

/-- What a host write that answers a next state did: a bus error, a register write, or a store to FBUF. -/
theorem hostWrite_next (s t : State) (wd : Width) (off : Nat) (v : Word) (h : hostWrite s wd off v = .next t) :
    off < 512 ∧
      ((writeRefused s wd off = true ∧ t = s.busError.refreshIrq) ∨
        (writeRefused s wd off = false ∧ off < 256 ∧ t = (s.regWrite off v).refreshIrq) ∨
        (writeRefused s wd off = false ∧ 256 ≤ off ∧
          t = { s with fbuf := s.fbuf.writeSpan (off - 256) (bytesOfWord wd v) }.refreshIrq)) := by
  have ho : off < 512 := by
    by_contra hc
    simp [hostWrite, memWrite, Config.windowSize, Nat.le_of_not_lt hc] at h
  refine ⟨ho, ?_⟩
  cases hr : writeRefused s wd off with
  | true =>
    rw [hostWrite_refused s wd off v ho hr] at h
    exact .inl ⟨rfl, by simpa [eq_comm] using h⟩
  | false =>
    by_cases hb : off < 256
    · rw [hostWrite_reg s wd off v hb hr] at h
      exact .inr (.inl ⟨rfl, hb, by simpa [eq_comm] using h⟩)
    · rw [hostWrite_fbuf s wd off v (by omega) ho hr] at h
      exact .inr (.inr ⟨rfl, by omega, by simpa [eq_comm] using h⟩)

/-- A `chk` that answers a next state changes `BERR`, `irq`, the data read, and when it fails the outside of the block:
the script and `stopped`. -/
theorem hostCheck_next (s t : State) (off : Nat) (mask v : Word) (h : hostCheck s off mask v = .next t) :
    ∃ d, t = { s with irq := s.irqen && s.done, rdata := some d, berr := t.berr, script := t.script,
                      stopped := t.stopped } := by
  unfold hostCheck at h
  have ho : off < 512 := by
    by_contra hc
    simp [memRead, Config.windowSize, Nat.le_of_not_lt hc] at h
  rcases memRead_cases s .word off ho with ⟨_, hm⟩ | ⟨_, _, hm⟩ | ⟨_, _, ⟨S, _, _, hm⟩ | ⟨_, hm⟩⟩ <;>
    simp only [hm, reduceCtorEq] at h <;> split at h <;> cases h <;> exact ⟨_, rfl⟩

/-- While a command runs, a write that is not refused is the acknowledgement of R26. -/
theorem writeRefused_busy (s : State) (wd : Width) (off : Nat) (hb : s.busy = true)
    (h : writeRefused s wd off = false) : wd = .word ∧ off = 0x008 := by
  unfold writeRefused at h
  simp only [hb, Bool.true_and, Config.fbufBase] at h
  cases wd <;> split at h <;> simp_all

theorem State.regWrite_status (s : State) (v : Word) : s.regWrite 0x008 v = s.ackStatus v := rfl

/-- Where `irq` is the level already, recomputing it changes nothing. -/
theorem State.refreshIrq_of_level (s : State) (h : s.irqLevel) : s.refreshIrq = s := by
  unfold State.refreshIrq
  rw [← show s.irq = (s.irqen && s.done) from h]

end Sys2Proof.Machine
end

