-- ==== Sys2Proof/Laws/Exec.lean ====
section
/-! SUPPORT. One inversion lemma per command: what its completion did when it answers a next state; and what a step
did. -/

namespace Sys2Proof.Machine

/-- The commands' bodies that work on a span: a failed pre-check, or the pseudocode ran on the bytes of the span. -/
theorem checked_onSpan_next (s t : State) (i : Instr) (off n : Nat)
    (body : Bytes → Host.Outcome State Fault Refusal) (h : checked s i (onSpan s off n body) = .next t) :
    (∃ e, precheck s i = some e ∧ t = s.finish e) ∨
      (precheck s i = none ∧ ∃ S, S.length = n ∧ s.fbuf.Holds off S ∧ body S = .next t) := by
  rcases checked_next s t i _ h with h | ⟨hp, h⟩
  · exact .inl h
  · exact .inr ⟨hp, onSpan_next s t off n body h⟩

theorem exec_nop (s : State) : exec .nop s = .next (s.finish .ok) := rfl

theorem exec_crc16_next (s t : State) (off len : Nat) (h : exec (.crc16 off len) s = .next t) :
    (∃ e, precheck s (.crc16 off len) = some e ∧ t = s.finish e) ∨
      (precheck s (.crc16 off len) = none ∧ ∃ S, S.length = len ∧ s.fbuf.Holds off S ∧
        t = { s with result := (crc16 S s.xorout).zeroExtend 64 }.finish .ok) := by
  simpa [eq_comm] using checked_onSpan_next s t _ off len _ h

theorem exec_bcd_next (s t : State) (off wid : Nat) (h : exec (.bcd off wid) s = .next t) :
    (∃ e, precheck s (.bcd off wid) = some e ∧ t = s.finish e) ∨
      (precheck s (.bcd off wid) = none ∧ ∃ S, S.length = wid ∧ s.fbuf.Holds off S ∧
        ((∃ r, bcdValue S = some r ∧ t = { s with result := BitVec.ofInt 64 r }.finish .ok) ∨
          (bcdValue S = none ∧ t = s.finish .baddigit))) := by
  rcases checked_onSpan_next s t _ off wid _ h with h | ⟨hp, S, hl, hS, hb⟩
  · exact .inl h
  · refine .inr ⟨hp, S, hl, hS, ?_⟩
    cases hv : bcdValue S with
    | none => exact .inr ⟨rfl, by simpa [hv, eq_comm] using hb⟩
    | some r => exact .inl ⟨r, rfl, by simpa [hv, eq_comm] using hb⟩

theorem exec_ctr_next (s t : State) (key : KeySel) (off len : Nat) (h : exec (.ctr key off len) s = .next t) :
    (∃ e, precheck s (.ctr key off len) = some e ∧ t = s.finish e) ∨
      (precheck s (.ctr key off len) = none ∧ ∃ S, S.length = len ∧ s.fbuf.Holds off S ∧
        t = { s with fbuf := s.fbuf.writeSpan off (ctrXcrypt (s.keyOf key) s.ctrBlock S) }.finish .ok) := by
  simpa [eq_comm] using checked_onSpan_next s t _ off len _ h

theorem exec_cbciv_next (s t : State) (key : KeySel) (off len : Nat) (h : exec (.cbciv key off len) s = .next t) :
    (∃ e, precheck s (.cbciv key off len) = some e ∧ t = s.finish e) ∨
      (precheck s (.cbciv key off len) = none ∧ ∃ S, S.length = len ∧ s.fbuf.Holds off S ∧
        t = cbcFinish { s with fbuf := s.fbuf.writeSpan off (cbcDecrypt (s.keyOf key) s.iv5 S (len / 16)) }
          off (len / 16)) := by
  simpa [eq_comm] using checked_onSpan_next s t _ off len _ h

theorem exec_cbcz_next (s t : State) (key : KeySel) (off nblk : Nat) (h : exec (.cbcz key off nblk) s = .next t) :
    (∃ e, precheck s (.cbcz key off nblk) = some e ∧ t = s.finish e) ∨
      (precheck s (.cbcz key off nblk) = none ∧ ∃ S, S.length = 16 * nblk ∧ s.fbuf.Holds off S ∧
        t = cbcFinish { s with fbuf := s.fbuf.writeSpan off (cbcDecrypt (s.keyOf key) iv7 S nblk) } off nblk) := by
  simpa [eq_comm] using checked_onSpan_next s t _ off (16 * nblk) _ h

theorem exec_cmac_next (s t : State) (key : KeySel) (off len : Nat) (pfx : Bool)
    (h : exec (.cmac key off len pfx) s = .next t) :
    (∃ e, precheck s (.cmac key off len pfx) = some e ∧ t = s.finish e) ∨
      (precheck s (.cmac key off len pfx) = none ∧ ∃ S, S.length = len ∧ s.fbuf.Holds off S ∧
        t = { s with mac := s.tag key pfx S }.finish .ok) := by
  simpa [eq_comm] using checked_onSpan_next s t _ off len _ h

theorem exec_cmacv_next (s t : State) (key : KeySel) (off len m : Nat) (pfx : Bool)
    (h : exec (.cmacv key off len m pfx) s = .next t) :
    (∃ e, precheck s (.cmacv key off len m pfx) = some e ∧ t = s.finish e) ∨
      (precheck s (.cmacv key off len m pfx) = none ∧ ∃ S, S.length = len ∧ s.fbuf.Holds off S ∧
        t = cmacvFinish { s with mac := s.tag key pfx S } m) := by
  simpa [eq_comm] using checked_onSpan_next s t _ off len _ h

theorem exec_kdf_next (s t : State) (dc : DerivedKey) (h : exec (.kdf dc) s = .next t) :
    (∃ e, precheck s (.kdf dc) = some e ∧ t = s.finish e) ∨
      (precheck s (.kdf dc) = none ∧ s.kvc = true ∧
        ((dc = .kenc ∧ t = { s with kenc := s.derived .kenc, kve := true }.finish .ok) ∨
          (dc = .kmac ∧ t = { s with kmac := s.derived .kmac, kvm := true }.finish .ok))) := by
  rcases checked_next s t _ _ h with h | ⟨hp, h⟩
  · exact .inl h
  · have hk : s.kvc = true := by
      have := ((precheck_eq_none_iff s _).mp hp).2.2
      simpa [keyMissing, keyUsed, State.keyValid] using this
    refine .inr ⟨hp, hk, ?_⟩
    cases dc
    · exact .inl ⟨rfl, by simpa [eq_comm] using h⟩
    · exact .inr ⟨rfl, by simpa [eq_comm] using h⟩

theorem exec_kclr (s : State) (all : Bool) : exec (.kclr all) s = .next
    (if all then { s.dropDerivedKeys with kconf := .zero, kcw := 0b0000#4 }.finish .ok
      else s.dropDerivedKeys.finish .ok) := by
  cases all <;> rfl

/-- A well-formed command whose span lies in FBUF and whose key, if it uses one, is valid passes the pre-checks. -/
theorem precheck_none (s : State) (i : Instr) (hw : i.wf = true)
    (hs : ∀ off n, spanOf i = some (off, n) → off + n ≤ 256) (hk : ∀ k, keyUsed i = some k → s.keyValid k = true) :
    precheck s i = none := by
  refine (precheck_eq_none_iff s i).mpr ⟨hw, ?_, ?_⟩
  · unfold spanLeaves
    cases h : spanOf i with
    | none => rfl
    | some p => exact decide_eq_false (Nat.not_lt.mpr (hs p.1 p.2 h))
  · unfold keyMissing
    cases h : keyUsed i with
    | none => rfl
    | some k => simp [hk k h]

/-- What the end of a CBC decryption leaves (R120): `SENT` and `ERR` as the sentinel check says, the completion's flags,
and nothing else. -/
theorem cbcFinish_eq (s : State) (off n : Nat) : cbcFinish s off n =
    { s with sent := decide (n ≠ 0) && sentinelAt s.fbuf off,
             err := if n = 0 ∨ sentinelAt s.fbuf off = true then .ok else .wrongkey,
             eng := .idle, done := true, irq := s.irqen } := by
  unfold cbcFinish State.finish
  by_cases hn : n = 0 <;> cases hs : sentinelAt s.fbuf off <;> simp [hn]

/-- What the end of a verification leaves (R130). -/
theorem cmacvFinish_eq (s : State) (m : Nat) : cmacvFinish s m =
    { s with matched := macOk s.mac s.expmac m, err := if macOk s.mac s.expmac m = true then .ok else .badmac,
             eng := .idle, done := true, irq := s.irqen } := by
  unfold cmacvFinish State.finish
  cases hs : macOk s.mac s.expmac m <;> simp

/-! ### How a command ends -/

/-- Every command that answers a next state ends as R142 says: its last act is `finish`. -/
theorem exec_next_finish (i : Instr) (s t : State) (h : exec i s = .next t) :
    ∃ u e, t = State.finish u e ∧ u.irqen = s.irqen := by
  cases i with
  | nop => cases (exec_nop s ▸ h); exact ⟨_, _, rfl, rfl⟩
  | crc16 off len =>
    rcases exec_crc16_next s t _ _ h with ⟨e, _, rfl⟩ | ⟨_, S, _, _, rfl⟩ <;> exact ⟨_, _, rfl, rfl⟩
  | bcd off wid =>
    rcases exec_bcd_next s t _ _ h with ⟨e, _, rfl⟩ | ⟨_, S, _, _, ⟨_, _, rfl⟩ | ⟨_, rfl⟩⟩ <;>
      exact ⟨_, _, rfl, rfl⟩
  | ctr =>
    rcases exec_ctr_next s t _ _ _ h with ⟨e, _, rfl⟩ | ⟨_, S, _, _, rfl⟩ <;> exact ⟨_, _, rfl, rfl⟩
  | cbciv =>
    rcases exec_cbciv_next s t _ _ _ h with ⟨e, _, rfl⟩ | ⟨_, S, _, _, rfl⟩
    · exact ⟨_, _, rfl, rfl⟩
    · unfold cbcFinish; split
      · exact ⟨_, _, rfl, rfl⟩
      · split <;> exact ⟨_, _, rfl, rfl⟩
  | cbcz =>
    rcases exec_cbcz_next s t _ _ _ h with ⟨e, _, rfl⟩ | ⟨_, S, _, _, rfl⟩
    · exact ⟨_, _, rfl, rfl⟩
    · unfold cbcFinish; split
      · exact ⟨_, _, rfl, rfl⟩
      · split <;> exact ⟨_, _, rfl, rfl⟩
  | cmac =>
    rcases exec_cmac_next s t _ _ _ _ h with ⟨e, _, rfl⟩ | ⟨_, S, _, _, rfl⟩ <;> exact ⟨_, _, rfl, rfl⟩
  | cmacv =>
    rcases exec_cmacv_next s t _ _ _ _ _ h with ⟨e, _, rfl⟩ | ⟨_, S, _, _, rfl⟩
    · exact ⟨_, _, rfl, rfl⟩
    · unfold cmacvFinish; split <;> exact ⟨_, _, rfl, rfl⟩
  | kdf =>
    rcases exec_kdf_next s t _ h with ⟨e, _, rfl⟩ | ⟨_, _, ⟨_, rfl⟩ | ⟨_, rfl⟩⟩ <;> exact ⟨_, _, rfl, rfl⟩
  | kclr all => rw [exec_kclr] at h; cases h; cases all <;> exact ⟨_, _, rfl, rfl⟩

theorem onSpan_total (s : State) (off n : Nat) (body : Bytes → Host.Outcome State Fault Refusal)
    (hb : ∀ S, ∃ t, body S = .next t) :
    onSpan s off n body = .fault .unwrittenByte ∨ ∃ t, onSpan s off n body = .next t := by
  unfold onSpan
  cases s.fbuf.readSpan off n with
  | none => exact .inl rfl
  | some S => exact .inr (hb S)

theorem checked_total (s : State) (i : Instr) (body : Host.Outcome State Fault Refusal)
    (h : body = .fault .unwrittenByte ∨ ∃ t, body = .next t) :
    checked s i body = .fault .unwrittenByte ∨ ∃ t, checked s i body = .next t := by
  unfold checked
  cases precheck s i with
  | none => exact h
  | some e => exact .inr ⟨_, rfl⟩

/-- A command is never refused, and the one thing that stops it is an unwritten byte of its span (R75). -/
theorem exec_total (i : Instr) (s : State) : exec i s = .fault .unwrittenByte ∨ ∃ t, exec i s = .next t := by
  cases i with
  | nop => exact .inr ⟨_, rfl⟩
  | crc16 off len => exact checked_total _ _ _ (onSpan_total _ _ _ _ fun S => ⟨_, rfl⟩)
  | bcd off wid => exact checked_total _ _ _ (onSpan_total _ _ _ _ fun S => by cases h : bcdValue S <;> simp)
  | ctr => exact checked_total _ _ _ (onSpan_total _ _ _ _ fun S => ⟨_, rfl⟩)
  | cbciv => exact checked_total _ _ _ (onSpan_total _ _ _ _ fun S => ⟨_, rfl⟩)
  | cbcz => exact checked_total _ _ _ (onSpan_total _ _ _ _ fun S => ⟨_, rfl⟩)
  | cmac => exact checked_total _ _ _ (onSpan_total _ _ _ _ fun S => ⟨_, rfl⟩)
  | cmacv => exact checked_total _ _ _ (onSpan_total _ _ _ _ fun S => ⟨_, rfl⟩)
  | kdf dc => exact checked_total _ _ _ (by cases dc <;> exact .inr ⟨_, rfl⟩)
  | kclr all => exact .inr ⟨_, exec_kclr s all⟩

/-! ### The step -/

theorem engineStep_idle (s : State) (h : s.eng = .idle) : engineStep s = .next s := by simp [engineStep, h]

theorem engineStep_run (s : State) (w : Word) (h : s.eng = .run w) : engineStep s = completion w s := by
  simp [engineStep, h]

theorem completion_ok (w : Word) (s : State) (i : Instr) (h : decode w = .ok i) : completion w s = exec i s := by
  simp [completion, h]

theorem completion_error (w : Word) (s : State) (e : Illegal) (h : decode w = .error e) :
    completion w s = .next (s.finish .illegal) := by simp [completion, h]

/-- A step that answers a next state: nothing happened, a command completed, the host accessed the window, or the reset
input moved; each with what the rest of the script then is. -/
theorem step_next (s t : State) (h : step s = .next t) :
    (∃ s' rest, s' = { s with script := rest } ∧
      ((s'.eng = .idle ∧ t = s') ∨ (∃ w, s'.eng = .run w ∧ completion w s' = .next t) ∨
        (s.rst = false ∧ ∃ wd off, hostRead s' wd off = .next t) ∨
        (s.rst = false ∧ ∃ wd off v, hostWrite s' wd off v = .next t) ∨
        (s.rst = false ∧ ∃ off mask v, hostCheck s' off mask v = .next t) ∨
        t = s'.enterReset ∨ t = s'.leaveReset)) := by
  have engine : ∀ s' : State, engineStep s' = .next t →
      (s'.eng = .idle ∧ t = s') ∨ ∃ w, s'.eng = .run w ∧ completion w s' = .next t := by
    intro s' h
    cases he : s'.eng with
    | idle => exact .inl ⟨rfl, by simpa [engineStep, he, eq_comm] using h⟩
    | run w => exact .inr ⟨w, rfl, by simpa [engineStep, he] using h⟩
  unfold step at h
  cases hs : s.script with
  | nil =>
    simp only [hs] at h
    refine ⟨s, s.script, rfl, ?_⟩
    rcases engine s h with h | h
    · exact .inl h
    · exact .inr (.inl h)
  | cons e rest =>
    simp only [hs] at h
    unfold serve at h
    cases e with
    | complete =>
      refine ⟨_, rest, rfl, ?_⟩
      rcases engine _ h with h | h
      · exact .inl h
      · exact .inr (.inl h)
    | assertReset =>
      refine ⟨_, rest, rfl, ?_⟩
      exact .inr (.inr (.inr (.inr (.inr (.inl (by simpa [eq_comm] using h))))))
    | releaseReset =>
      refine ⟨_, rest, rfl, ?_⟩
      exact .inr (.inr (.inr (.inr (.inr (.inr (by simpa [eq_comm] using h))))))
    | read wd off =>
      simp only at h
      split at h
      · cases h
      · rename_i hr
        exact ⟨_, rest, rfl,
          .inr (.inr (.inl ⟨by simpa using hr, wd, off, h⟩))⟩
    | write wd off v =>
      simp only at h
      split at h
      · cases h
      · rename_i hr
        exact ⟨_, rest, rfl,
          .inr (.inr (.inr (.inl ⟨by simpa using hr, wd, off, v, h⟩)))⟩
    | chk off mask v =>
      simp only at h
      split at h
      · cases h
      · rename_i hr
        exact ⟨_, rest, rfl,
          .inr (.inr (.inr (.inr (.inl ⟨by simpa using hr, off, mask, v, h⟩))))⟩
    | poll =>
      simp only at h
      split at h
      · cases h
      · rename_i hr
        split at h
        · refine ⟨_, .poll :: rest, rfl, ?_⟩
          rcases engine _ h with h | h
          · exact .inl h
          · exact .inr (.inl h)
        · exact ⟨_, rest, rfl,
            .inr (.inr (.inl ⟨by simpa using hr, .word, _, h⟩))⟩

end Sys2Proof.Machine
end

