-- ==== Sys2Proof/Laws/Cipher.lean ====
section
/-! SUPPORT. The byte strings of the ciphers, one byte or one block at a time: blocks, the keystream, the CBC chain. -/

namespace Sys2Proof.Machine

/-! ### Blocks and the registers that hold them -/

@[simp] theorem Block.bytes_length (b : Block) : b.bytes.length = 16 := rfl

@[simp] theorem Block.ofBytes_bytes (b : Block) : Block.ofBytes b.bytes = b := rfl

theorem Block.bytes_ofBytes (S : Bytes) (h : S.length = 16) : (Block.ofBytes S).bytes = S := by
  refine List.ext_getElem (by simp [h]) fun k h1 h2 => ?_
  have hk : k < 16 := by simpa using h1
  have hg : ∀ (j : Nat) (hj : j < 16), S.getD j 0 = S[j]'(by omega) := fun j hj => by
    simp [List.getD_eq_getElem?_getD, List.getElem?_eq_getElem (show j < S.length by omega)]
  simp only [Block.ofBytes, hg 0 (by omega), hg 1 (by omega), hg 2 (by omega), hg 3 (by omega), hg 4 (by omega),
    hg 5 (by omega), hg 6 (by omega), hg 7 (by omega), hg 8 (by omega), hg 9 (by omega), hg 10 (by omega),
    hg 11 (by omega), hg 12 (by omega), hg 13 (by omega), hg 14 (by omega), hg 15 (by omega)]
  interval_cases k <;> rfl

@[simp] theorem Quad.toBlock_bytes (q : Quad) : q.toBlock.bytes = q.bytes := rfl

theorem le4_ofLe4 (b0 b1 b2 b3 : Byte) : le4 (ofLe4 b0 b1 b2 b3) = [b0, b1, b2, b3] := by
  have h : ∀ j, j < 4 → (ofLe4 b0 b1 b2 b3).extractLsb' (8 * j) 8 = [b0, b1, b2, b3].getD j 0 := by
    intro j hj
    refine BitVec.eq_of_getLsbD_eq fun i hi => ?_
    unfold ofLe4
    rw [BitVec.getLsbD_extractLsb']
    simp only [BitVec.getLsbD_append]
    interval_cases j <;> interval_cases i <;> simp
  have h0 := h 0 (by omega)
  have h1 := h 1 (by omega)
  have h2 := h 2 (by omega)
  have h3 := h 3 (by omega)
  simp only [Nat.mul_zero, Nat.mul_one, Nat.reduceMul, List.getD_cons_zero, List.getD_cons_succ] at h0 h1 h2 h3
  simp only [le4, h0, h1, h2, h3]

/-- The registers that hold a block hold its bytes (R40, R128). -/
@[simp] theorem Quad.ofBlock_bytes (b : Block) : (Quad.ofBlock b).bytes = b.bytes := by
  simp only [Quad.ofBlock, Quad.bytes, Col.toWord, le4_ofLe4]
  rfl

/-- Two sets of registers with the same bytes are equal. -/
theorem Quad.eq_of_bytes (p q : Quad) (h : p.bytes = q.bytes) : p = q := by
  have w : ∀ v w : Word, le4 v = le4 w → v = w := by
    intro v w hvw
    simp only [le4, List.cons.injEq, and_true] at hvw
    obtain ⟨h0, h1, h2, h3⟩ := hvw
    refine BitVec.eq_of_getLsbD_eq fun i hi => ?_
    have bit : ∀ lo j, j < 8 → v.extractLsb' lo 8 = w.extractLsb' lo 8 → v.getLsbD (lo + j) = w.getLsbD (lo + j) := by
      intro lo j hj heq
      have := congrArg (fun x => x.getLsbD j) heq
      simpa [BitVec.getLsbD_extractLsb', hj] using this
    rcases Nat.lt_or_ge i 8 with hi8 | hi8
    · simpa using bit 0 i hi8 h0
    · rcases Nat.lt_or_ge i 16 with hi16 | hi16
      · simpa [Nat.add_sub_cancel' hi8] using bit 8 (i - 8) (by omega) h1
      · rcases Nat.lt_or_ge i 24 with hi24 | hi24
        · simpa [Nat.add_sub_cancel' hi16] using bit 16 (i - 16) (by omega) h2
        · simpa [Nat.add_sub_cancel' hi24] using bit 24 (i - 24) (by omega) h3
  obtain ⟨p0, p1, p2, p3⟩ := p
  obtain ⟨q0, q1, q2, q3⟩ := q
  simp only [Quad.bytes] at h
  obtain ⟨h0, h⟩ := List.append_inj h rfl
  obtain ⟨h1, h⟩ := List.append_inj h rfl
  obtain ⟨h2, h3⟩ := List.append_inj h rfl
  rw [w _ _ h0, w _ _ h1, w _ _ h2, w _ _ h3]

@[simp] theorem Quad.bytes_length (q : Quad) : q.bytes.length = 16 := rfl

/-! ### The keystream (R117) -/

theorem flatMap_blocks_getElem? (f : Nat → Block) (n k : Nat) (hk : k < 16 * n) :
    ((List.range n).flatMap fun i => (f i).bytes)[k]? = (f (k / 16)).bytes[k % 16]? := by
  induction n generalizing f k with
  | zero => omega
  | succ n ih =>
    rw [List.range_succ_eq_map, List.flatMap_cons, List.flatMap_map]
    by_cases hlt : k < 16
    · rw [List.getElem?_append_left (by simpa using hlt), Nat.div_eq_of_lt hlt, Nat.mod_eq_of_lt hlt]
    · rw [List.getElem?_append_right (by simp; omega), Block.bytes_length, ih (fun i => f (i + 1)) (k - 16) (by omega)]
      rw [show (k - 16) / 16 + 1 = k / 16 by omega, show (k - 16) % 16 = k % 16 by omega]

/-- Byte k of the keystream is byte `k mod 16` of the encryption of counter block `k / 16` (R117). -/
theorem keystream_getElem? (K : Block) (ctr : Nat → Block) (n k : Nat) (hk : k < n) :
    (keystream K ctr n)[k]? = (aesEnc K (ctr (k / 16))).bytes[k % 16]? :=
  flatMap_blocks_getElem? (fun i => aesEnc K (ctr i)) _ k (by omega)

theorem le_keystream_length (K : Block) (ctr : Nat → Block) (n : Nat) : n ≤ (keystream K ctr n).length := by
  rcases Nat.eq_zero_or_pos n with rfl | hn
  · omega
  · have h := keystream_getElem? K ctr n (n - 1) (by omega)
    by_contra hc
    rw [List.getElem?_eq_none (by omega)] at h
    have : (n - 1) % 16 < (aesEnc K (ctr ((n - 1) / 16))).bytes.length := by
      rw [Block.bytes_length]
      omega
    rw [List.getElem?_eq_getElem this] at h
    cases h

@[simp] theorem ctrXcrypt_length (K : Block) (ctr : Nat → Block) (S : Bytes) :
    (ctrXcrypt K ctr S).length = S.length := by
  simp [ctrXcrypt, le_keystream_length]

/-- Byte k of `ctr_xcrypt` (R117). -/
theorem ctrXcrypt_getElem (K : Block) (ctr : Nat → Block) (S : Bytes) (k : Nat) (hk : k < S.length) :
    ∃ b, (aesEnc K (ctr (k / 16))).bytes[k % 16]? = some b ∧
      (ctrXcrypt K ctr S)[k]'(by simpa using hk) = S[k] ^^^ b := by
  have hl := le_keystream_length K ctr S.length
  refine ⟨(keystream K ctr S.length)[k], ?_, ?_⟩
  · rw [← keystream_getElem? K ctr S.length k hk, List.getElem?_eq_getElem (by omega)]
  · simp [ctrXcrypt]

/-! ### The CBC chain (R119) -/

theorem blockAt_drop (S : Bytes) (i : Nat) : blockAt (S.drop 16) i = blockAt S (i + 1) := by
  simp only [blockAt, List.drop_drop]
  rw [show 16 + 16 * i = 16 * (i + 1) by omega]

@[simp] theorem cbcDecrypt_length (K prev : Block) (S : Bytes) (n : Nat) (h : 16 * n ≤ S.length) :
    (cbcDecrypt K prev S n).length = S.length := by
  induction n generalizing prev S with
  | zero => rfl
  | succ n ih =>
    simp only [cbcDecrypt, List.length_append, Block.bytes_length]
    rw [ih _ _ (by simp; omega), List.length_drop]
    omega

/-- Past the decrypted blocks nothing changes (R119). -/
theorem cbcDecrypt_tail (K prev : Block) (S : Bytes) (n : Nat) (h : 16 * n ≤ S.length) (k : Nat) (hk : 16 * n ≤ k) :
    (cbcDecrypt K prev S n)[k]? = S[k]? := by
  induction n generalizing prev S k with
  | zero => rfl
  | succ n ih =>
    simp only [cbcDecrypt]
    rw [List.getElem?_append_right (by simp; omega), Block.bytes_length, ih _ _ (by simp; omega) _ (by omega),
      List.getElem?_drop, Nat.add_sub_cancel' (by omega)]

/-- Block i of the decryption is the plaintext block of R119, chained on the ciphertext block before it. -/
theorem cbcDecrypt_block (K prev : Block) (S : Bytes) (n : Nat) (h : 16 * n ≤ S.length) (i k : Nat) (hi : i < n)
    (hk : k < 16) : (cbcDecrypt K prev S n)[16 * i + k]? = (cbcPlain K prev S i).bytes[k]? := by
  induction n generalizing prev S i with
  | zero => omega
  | succ n ih =>
    simp only [cbcDecrypt]
    cases i with
    | zero =>
      rw [List.getElem?_append_left (by simp; omega), Nat.mul_zero, Nat.zero_add]
      rfl
    | succ i =>
      rw [List.getElem?_append_right (by simp; omega), Block.bytes_length,
        show 16 * (i + 1) + k - 16 = 16 * i + k by omega, ih _ _ (by simp; omega) i (by omega)]
      congr 2
      simp only [cbcPlain, blockAt_drop]
      cases i with
      | zero => rfl
      | succ j => simp

/-- FBUF after a CBC decryption of n blocks of the span S: each block is the plaintext block, every other byte is as
before. -/
theorem cbcDecrypt_written (s : State) (K iv : Block) (off n : Nat) (S : Bytes) (hn : 16 * n ≤ S.length)
    (hf : off + S.length ≤ 256) (hwf : s.fbuf.wf) (hS : s.fbuf.Holds off S) :
    (∀ i, i < n →
      (s.fbuf.writeSpan off (cbcDecrypt K iv S n)).Holds (off + 16 * i) (cbcPlain K iv S i).bytes) ∧
    (∀ a, a < off ∨ off + 16 * n ≤ a →
      (s.fbuf.writeSpan off (cbcDecrypt K iv S n)).read a = s.fbuf.read a) := by
  have hl := cbcDecrypt_length K iv S n hn
  refine ⟨fun i hi k => ?_, fun a ha => ?_⟩
  · have hk : k.val < 16 := k.isLt
    have := Memory.read_writeSpan_inside (cbcDecrypt K iv S n) s.fbuf off (16 * i + k) hwf (by omega) (by omega)
    rw [Nat.add_assoc, this]
    have hb := cbcDecrypt_block K iv S n hn i k hi hk
    rw [List.getElem?_eq_getElem (by omega), List.getElem?_eq_getElem (by simpa using hk)] at hb
    exact hb
  · by_cases hin : off ≤ a ∧ a < off + S.length
    · obtain ⟨k, rfl⟩ := Nat.exists_eq_add_of_le hin.1
      have := Memory.read_writeSpan_inside (cbcDecrypt K iv S n) s.fbuf off k hwf (by omega) (by omega)
      rw [this, ← List.getElem?_eq_getElem, cbcDecrypt_tail K iv S n hn k (by omega)]
      have := hS ⟨k, by omega⟩
      rw [this, List.getElem?_eq_getElem (by omega)]; rfl
    · exact Memory.read_writeSpan_outside _ s.fbuf off a hwf (by omega) (by omega)

theorem sentinelAt_iff (m : Memory) (off : Nat) :
    sentinelAt m off = true ↔ m.read off = some 0x2F#8 ∧ m.read (off + 1) = some 0x2F#8 := by
  simp [sentinelAt]

end Sys2Proof.Machine
end

