-- ==== Sys2Proof/Laws/Decode.lean ====
section
/-! SUPPORT. The rows of the opcode map as conditions on fields, so that the mask arithmetic of R89 is done once. -/

namespace Sys2Proof

/-- A field is the number of its bits. -/
theorem testBit_field (w : Word) (lo width k : Nat) :
    (field w lo width).testBit k = (decide (k < width) && w.getLsbD (lo + k)) := by
  simp [field, Nat.testBit_mod_two_pow, Nat.testBit_div_two_pow, Nat.add_comm, BitVec.getLsbD]

/-- A field has a value exactly when its bits are the value's bits. -/
theorem field_eq_iff (w : Word) (lo width v : Nat) (hv : v < 2 ^ width) :
    field w lo width = v ↔ ∀ k, k < width → w.getLsbD (lo + k) = v.testBit k := by
  constructor
  · rintro rfl k hk
    simp [testBit_field, hk]
  · intro h
    refine Nat.eq_of_testBit_eq fun k => ?_
    rw [testBit_field]
    by_cases hk : k < width
    · simp [hk, h k hk]
    · simp only [hk, decide_false, Bool.false_and]
      exact (Nat.testBit_lt_two_pow (Nat.lt_of_lt_of_le hv (Nat.pow_le_pow_right (by omega) (by omega)))).symm

/-- A field fits its width. -/
theorem field_lt (w : Word) (lo width : Nat) : field w lo width < 2 ^ width := Nat.mod_lt _ (Nat.two_pow_pos width)

/-- The fields of format R (R78) of a word made of fields that fit. -/
theorem field_formatR (opc ksel off len mlc pfx : Nat) (h0 : opc < 64) (h1 : ksel < 4) (h2 : off < 256) (h3 : len < 512)
    (h4 : mlc < 8) (h5 : pfx < 2) :
    ∀ w, w = BitVec.ofNat 32 (formatR opc ksel off len mlc pfx) →
      field w 0 6 = opc ∧ field w 6 2 = ksel ∧ field w 8 8 = off ∧ field w 16 9 = len ∧ field w 25 3 = mlc ∧
        field w 28 1 = pfx ∧ field w 29 3 = 0 := by
  rintro w rfl
  simp only [field, formatR, BitVec.toNat_ofNat]
  omega

/-! Every command word is a format R word: format I fields lie inside format R fields (R77). Rewrite with these; do not
let the kernel unfold `encodeNat` beside `formatR`. -/

theorem encode_nop : encode .nop = BitVec.ofNat 32 (formatR 0x00 0 0 0 0 0) := by decide

theorem encode_crc16 (off len : Nat) :
    encode (.crc16 off len) = BitVec.ofNat 32 (formatR 0x01 0 off len 0 0) := by simp only [encode, encodeNat]

theorem encode_bcd (off wid : Nat) :
    encode (.bcd off wid) = BitVec.ofNat 32 (formatR 0x02 0 off wid 0 0) := by
  simp only [encode, encodeNat, formatR, Nat.zero_mul, Nat.add_zero]

theorem encode_ctr (k : KeySel) (off len : Nat) :
    encode (.ctr k off len) = BitVec.ofNat 32 (formatR 0x10 k.code off len 0 0) := by simp only [encode, encodeNat]

theorem encode_cbciv (k : KeySel) (off len : Nat) :
    encode (.cbciv k off len) = BitVec.ofNat 32 (formatR 0x11 k.code off len 0 0) := by simp only [encode, encodeNat]

theorem encode_cbcz (k : KeySel) (off nblk : Nat) :
    encode (.cbcz k off nblk) = BitVec.ofNat 32 (formatR 0x12 k.code off nblk 0 0) := by
  simp only [encode, encodeNat, formatR, Nat.zero_mul, Nat.add_zero]

theorem encode_cmac (k : KeySel) (off len : Nat) (pfx : Bool) :
    encode (.cmac k off len pfx) = BitVec.ofNat 32 (formatR 0x20 k.code off len 0 pfx.toNat) := by
  simp only [encode, encodeNat]

theorem encode_cmacv (k : KeySel) (off len maclen : Nat) (pfx : Bool) :
    encode (.cmacv k off len maclen pfx) =
      BitVec.ofNat 32 (formatR 0x21 k.code off len (mlcOf maclen) pfx.toNat) := by
  simp only [encode, encodeNat]

theorem encode_kdf (dc : DerivedKey) :
    encode (.kdf dc) = BitVec.ofNat 32 (formatR 0x30 0 (dc.code + 2) 0 0 0) := by cases dc <;> decide

theorem encode_kclr (all : Bool) :
    encode (.kclr all) = BitVec.ofNat 32 (formatR 0x31 0 all.toNat 0 0 0) := by cases all <;> decide

/-- Every word is the sum of the fields of format R and its top three bits (R77). -/
theorem toNat_eq_formatR (w : Word) :
    w.toNat = formatR (field w 0 6) (field w 6 2) (field w 8 8) (field w 16 9) (field w 25 3) (field w 28 1) +
      field w 29 3 * 2 ^ 29 := by
  have hw := w.isLt
  simp only [field, formatR]
  omega

/-- `LEN` (R82) split at bit 19, where `WID` (R84) ends, and at bit 20, where `NBLK` (R83) ends. -/
theorem field_len_split (w : Word) :
    field w 16 9 = field w 16 3 + field w 19 6 * 8 ∧ field w 16 9 = field w 16 4 + field w 20 5 * 16 := by
  simp only [field]
  omega

/-- The byte of `OFF` (R81) split into bit 8 (`DC`, `ALL`), bits [10:9] (`SEL`) and the reserved bits (R87, R88). -/
theorem field_off_split (w : Word) : field w 8 8 = field w 8 1 + field w 9 2 * 2 + field w 11 5 * 8 := by
  simp only [field]
  omega

/-- The fields a row of R89 fixes, each with its low bit, its width and its value: the opcode, and the fields the format
of the row marks 0 (R77, R78, R79; for `KDF` also `SEL` = 1). -/
def Op.fixedFields : Op → List (Nat × Nat × Nat)
  | .nop => [(0, 6, 0), (6, 2, 0), (8, 8, 0), (16, 9, 0), (25, 3, 0), (28, 1, 0), (29, 3, 0)]
  | .crc16 => [(0, 6, 0x01), (6, 2, 0), (25, 3, 0), (28, 1, 0), (29, 3, 0)]
  | .bcd => [(0, 6, 0x02), (6, 2, 0), (19, 6, 0), (25, 3, 0), (28, 1, 0), (29, 3, 0)]
  | .ctr => [(0, 6, 0x10), (25, 3, 0), (28, 1, 0), (29, 3, 0)]
  | .cbciv => [(0, 6, 0x11), (25, 3, 0), (28, 1, 0), (29, 3, 0)]
  | .cbcz => [(0, 6, 0x12), (20, 5, 0), (25, 3, 0), (28, 1, 0), (29, 3, 0)]
  | .cmac => [(0, 6, 0x20), (25, 3, 0), (29, 3, 0)]
  | .cmacv => [(0, 6, 0x21), (29, 3, 0)]
  | .kdf => [(0, 6, 0x30), (6, 2, 0), (9, 2, 1), (11, 5, 0), (16, 9, 0), (25, 3, 0), (28, 1, 0), (29, 3, 0)]
  | .kclr => [(0, 6, 0x31), (6, 2, 0), (9, 2, 0), (11, 5, 0), (16, 9, 0), (25, 3, 0), (28, 1, 0), (29, 3, 0)]

/-- The mask of a row covers its fixed fields and nothing else, and the pattern holds their values. -/
theorem Op.mask_covers (o : Op) :
    (∀ i, i < 32 → (o.mask.getLsbD i = true ↔ ∃ f ∈ o.fixedFields, f.1 ≤ i ∧ i < f.1 + f.2.1)) ∧
      (∀ f ∈ o.fixedFields, f.1 + f.2.1 ≤ 32 ∧ f.2.2 < 2 ^ f.2.1 ∧
        ∀ k, k < f.2.1 → o.pattern.getLsbD (f.1 + k) = f.2.2.testBit k) ∧
      (∀ i, i < 32 → o.mask.getLsbD i = false → o.pattern.getLsbD i = false) := by
  cases o <;> decide

/-- A word selects a row exactly when the row's fixed fields have their values. -/
theorem Op.selects_iff (o : Op) (w : Word) :
    o.selects w = true ↔ ∀ f ∈ o.fixedFields, field w f.1 f.2.1 = f.2.2 := by
  obtain ⟨hm, hf, hz⟩ := o.mask_covers
  unfold Op.selects
  rw [beq_iff_eq]
  constructor
  · intro h f hfm
    obtain ⟨hb, hv, hp⟩ := hf f hfm
    refine (field_eq_iff w _ _ _ hv).mpr fun k hk => ?_
    have hbit := congrArg (fun x => x.getLsbD (f.1 + k)) h
    have hmask := (hm (f.1 + k) (by omega)).mpr ⟨f, hfm, by omega, by omega⟩
    simpa [hmask, hp k hk] using hbit
  · intro h
    refine BitVec.eq_of_getLsbD_eq fun i hi => ?_
    rw [BitVec.getLsbD_and]
    cases hmi : o.mask.getLsbD i with
    | false => simp [hz i hi hmi]
    | true =>
      obtain ⟨f, hfm, hlo, hhi⟩ := (hm i hi).mp hmi
      obtain ⟨_, hv, hp⟩ := hf f hfm
      have h1 := (field_eq_iff w _ _ _ hv).mp (h f hfm) (i - f.1) (by omega)
      have h2 := hp (i - f.1) (by omega)
      rw [show f.1 + (i - f.1) = i by omega] at h1 h2
      rw [Bool.and_true, h1, h2]

end Sys2Proof
end

