-- ==== Sys2Proof/Laws/PerInstr.lean ====
section
/-! SUPPORT. A statement per instruction: the word of a well-formed command selects the command's own row of the opcode
map (R89), with one lemma per constructor. -/

namespace Sys2Proof.Laws

/-- The row of the opcode map a command belongs to (R89). -/
def rowFor : Instr → Op
  | .nop => .nop
  | .crc16 _ _ => .crc16
  | .bcd _ _ => .bcd
  | .ctr _ _ _ => .ctr
  | .cbciv _ _ _ => .cbciv
  | .cbcz _ _ _ => .cbcz
  | .cmac _ _ _ _ => .cmac
  | .cmacv _ _ _ _ _ => .cmacv
  | .kdf _ => .kdf
  | .kclr _ => .kclr

theorem keyCode_lt (k : KeySel) : k.code < 4 := by cases k <;> decide

theorem mlcOf_lt (m : Nat) (h : m ∈ Config.macLengths) : mlcOf m < 8 := by
  simp only [Config.macLengths, List.mem_cons, List.not_mem_nil, or_false] at h
  rcases h with rfl | rfl | rfl | rfl | rfl <;> decide

end Sys2Proof.Laws

/-- The word of a well-formed command selects the command's own row. -/
def Sys2Proof.Laws.EncodeSelectsRow.Statement (i : Sys2Proof.Instr) : Prop :=
  i.wf = true → (Sys2Proof.Laws.rowFor i).selects (Sys2Proof.encode i) = true

open Sys2Proof Sys2Proof.Laws

theorem Sys2Proof.Laws.EncodeSelectsRow.nop : Sys2Proof.Laws.EncodeSelectsRow.Statement .nop := fun _ => by decide

theorem Sys2Proof.Laws.EncodeSelectsRow.crc16 (off len : Nat) :
    Sys2Proof.Laws.EncodeSelectsRow.Statement (.crc16 off len) := by
  intro h
  simp only [Instr.wf, Bool.and_eq_true, decide_eq_true_eq] at h
  obtain ⟨f0, f1, _, _, f4, f5, f6⟩ :=
    field_formatR 0x01 0 off len 0 0 (by omega) (by omega) (by omega) (by omega) (by omega) (by omega) _ (encode_crc16 off len)
  refine (Op.selects_iff .crc16 _).mpr ?_
  simp [Op.fixedFields, f0, f1, f4, f5, f6]

theorem Sys2Proof.Laws.EncodeSelectsRow.bcd (off wid : Nat) :
    Sys2Proof.Laws.EncodeSelectsRow.Statement (.bcd off wid) := by
  intro h
  simp only [Instr.wf, Bool.and_eq_true, decide_eq_true_eq] at h
  have hw : wid < 8 := by
    have := h.2
    simp only [Config.bcdWidths, List.mem_cons, List.not_mem_nil, or_false] at this
    omega
  have h3 := (field_len_split (encode (.bcd off wid))).1
  have h4 := field_lt (encode (.bcd off wid)) 16 3
  obtain ⟨f0, f1, _, f3, f4, f5, f6⟩ :=
    field_formatR 0x02 0 off wid 0 0 (by omega) (by omega) (by omega) (by omega) (by omega) (by omega) _ (encode_bcd off wid)
  refine (Op.selects_iff .bcd _).mpr ?_
  simp [Op.fixedFields, f0, f1, f4, f5, f6]
  omega

theorem Sys2Proof.Laws.EncodeSelectsRow.ctr (k : KeySel) (off len : Nat) :
    Sys2Proof.Laws.EncodeSelectsRow.Statement (.ctr k off len) := by
  intro h
  simp only [Instr.wf, Bool.and_eq_true, decide_eq_true_eq] at h
  obtain ⟨f0, _, _, _, f4, f5, f6⟩ :=
    field_formatR 0x10 k.code off len 0 0 (by omega) (keyCode_lt k) (by omega) (by omega) (by omega) (by omega) _ (encode_ctr k off len)
  refine (Op.selects_iff .ctr _).mpr ?_
  simp [Op.fixedFields, f0, f4, f5, f6]

theorem Sys2Proof.Laws.EncodeSelectsRow.cbciv (k : KeySel) (off len : Nat) :
    Sys2Proof.Laws.EncodeSelectsRow.Statement (.cbciv k off len) := by
  intro h
  simp only [Instr.wf, Bool.and_eq_true, decide_eq_true_eq] at h
  obtain ⟨f0, _, _, _, f4, f5, f6⟩ :=
    field_formatR 0x11 k.code off len 0 0 (by omega) (keyCode_lt k) (by omega) (by omega) (by omega) (by omega) _ (encode_cbciv k off len)
  refine (Op.selects_iff .cbciv _).mpr ?_
  simp [Op.fixedFields, f0, f4, f5, f6]

theorem Sys2Proof.Laws.EncodeSelectsRow.cbcz (k : KeySel) (off nblk : Nat) :
    Sys2Proof.Laws.EncodeSelectsRow.Statement (.cbcz k off nblk) := by
  intro h
  simp only [Instr.wf, Bool.and_eq_true, decide_eq_true_eq] at h
  have h3 := (field_len_split (encode (.cbcz k off nblk))).2
  have h4 := field_lt (encode (.cbcz k off nblk)) 16 4
  obtain ⟨f0, _, _, f3, f4, f5, f6⟩ :=
    field_formatR 0x12 k.code off nblk 0 0 (by omega) (keyCode_lt k) (by omega) (by omega) (by omega) (by omega) _ (encode_cbcz k off nblk)
  refine (Op.selects_iff .cbcz _).mpr ?_
  simp [Op.fixedFields, f0, f4, f5, f6]
  omega

theorem Sys2Proof.Laws.EncodeSelectsRow.cmac (k : KeySel) (off len : Nat) (pfx : Bool) :
    Sys2Proof.Laws.EncodeSelectsRow.Statement (.cmac k off len pfx) := by
  intro h
  simp only [Instr.wf, Bool.and_eq_true, decide_eq_true_eq] at h
  obtain ⟨f0, _, _, _, f4, _, f6⟩ :=
    field_formatR 0x20 k.code off len 0 pfx.toNat (by omega) (keyCode_lt k) (by omega) (by omega) (by omega) pfx.toNat_lt _ (encode_cmac k off len pfx)
  refine (Op.selects_iff .cmac _).mpr ?_
  simp [Op.fixedFields, f0, f4, f6]

theorem Sys2Proof.Laws.EncodeSelectsRow.cmacv (k : KeySel) (off len maclen : Nat) (pfx : Bool) :
    Sys2Proof.Laws.EncodeSelectsRow.Statement (.cmacv k off len maclen pfx) := by
  intro h
  simp only [Instr.wf, Bool.and_eq_true, decide_eq_true_eq] at h
  obtain ⟨f0, _, _, _, _, _, f6⟩ :=
    field_formatR 0x21 k.code off len (mlcOf maclen) pfx.toNat (by omega) (keyCode_lt k) (by omega) (by omega) (mlcOf_lt maclen h.2) pfx.toNat_lt _ (encode_cmacv k off len maclen pfx)
  refine (Op.selects_iff .cmacv _).mpr ?_
  simp [Op.fixedFields, f0, f6]

theorem Sys2Proof.Laws.EncodeSelectsRow.kdf (dc : DerivedKey) :
    Sys2Proof.Laws.EncodeSelectsRow.Statement (.kdf dc) := fun _ => by cases dc <;> decide

theorem Sys2Proof.Laws.EncodeSelectsRow.kclr (all : Bool) :
    Sys2Proof.Laws.EncodeSelectsRow.Statement (.kclr all) := fun _ => by cases all <;> decide
end

