-- ==== Sys2Proof/Machine/Assembler.lean ====
section
/-! DEFINITION. The assembler form of the commands (30_encoding.md R95) and the pseudo-instructions (R96). -/

namespace Sys2Proof.Machine

/-- The key operand (R95). -/
def keyName : KeySel → String
  | .kconf => "kconf"
  | .kenc => "kenc"
  | .kmac => "kmac"

/-- A number operand in decimal (R95). -/
def numText (n : Nat) : String := toString n

/-- A command in the assembler form (R95): lower case, operands separated by commas. -/
def asmText : Instr → String
  | .nop => "nop"
  | .crc16 off len => "crc16 " ++ numText off ++ ", " ++ numText len
  | .bcd off wid => "bcd " ++ numText off ++ ", " ++ numText wid
  | .ctr k off len => "ctr " ++ keyName k ++ ", " ++ numText off ++ ", " ++ numText len
  | .cbciv k off len => "cbciv " ++ keyName k ++ ", " ++ numText off ++ ", " ++ numText len
  | .cbcz k off nblk => "cbcz " ++ keyName k ++ ", " ++ numText off ++ ", " ++ numText nblk
  | .cmac k off len pfx =>
    "cmac" ++ (if pfx then ".p" else "") ++ " " ++ keyName k ++ ", " ++ numText off ++ ", " ++ numText len
  | .cmacv k off len maclen pfx =>
    "cmacv" ++ (if pfx then ".p" else "") ++ " " ++ keyName k ++ ", " ++ numText off ++ ", " ++ numText len ++ ", " ++
      numText maclen
  | .kdf .kenc => "kdf kenc"
  | .kdf .kmac => "kdf kmac"
  | .kclr all => "kclr" ++ (if all then ".all" else "")

/-- The pseudo-instructions (R96). -/
inductive Pseudo where
  /-- `ell.dec OFF, LEN`: ELL AES-CTR decryption. -/
  | ellDec (off len : Nat)
  /-- `tpl5.dec OFF, LEN`: TPL AES-CBC with IV. -/
  | tpl5Dec (off len : Nat)
  /-- `tpl7.dec OFF, NBLK`: TPL AES-CBC without IV. -/
  | tpl7Dec (off nblk : Nat)
  /-- `afl.verify OFF, LEN, MACLEN`: the AFL MAC check. -/
  | aflVerify (off len maclen : Nat)
  /-- `kdf.both`: both derived keys. -/
  | kdfBoth
  /-- `fsig OFF, LEN`: the format signature. -/
  | fsig (off len : Nat)
  /-- `pl.crc OFF, LEN`: the CRC over an ELL-protected payload. -/
  | plCrc (off len : Nat)
  deriving DecidableEq, Repr

/-- The commands a pseudo-instruction stands for, each launched after the one before it has completed (R96). -/
def expandPseudo : Pseudo → List Instr
  | .ellDec off len => [.ctr .kconf off len]
  | .tpl5Dec off len => [.cbciv .kconf off len]
  | .tpl7Dec off nblk => [.cbcz .kenc off nblk]
  | .aflVerify off len maclen => [.cmacv .kmac off len maclen true]
  | .kdfBoth => [.kdf .kenc, .kdf .kmac]
  | .fsig off len => [.crc16 off len]
  | .plCrc off len => [.crc16 off len]

end Sys2Proof.Machine
end

