-- ==== Sys2Proof/Tests/Slice0.lean ====
section
/-! SUPPORT. Tests: ill-formed commands are refused, words written out bit by bit decode, one or two vectors of the spec
per command (95_test_vectors.md, named in each comment), and for every statement with hypotheses a state that meets
them. -/

open Sys2Proof Sys2Proof.Machine

namespace Sys2Proof.Tests

/-! ### Helpers -/

/-- The test key of 95_test_vectors.md (`KC`). -/
def keyKC : Quad := ⟨0x16157E2B#32, 0xA6D2AE28#32, 0x8815F7AB#32, 0x3C4FCF09#32⟩

/-- The bytes of a number, first byte most significant, as the spec writes byte strings. -/
def hex (n v : Nat) : Bytes := (List.range n).map fun i => BitVec.ofNat 8 (v / 2 ^ (8 * (n - 1 - i)))

/-- Reset with `KC` in `KCONF`, the header `H`, and the bytes S from `FB[off]` on. -/
def stateKC (off : Nat) (S : Bytes) : State :=
  { State.reset with
    kconf := keyKC
    kcw := 0b1111#4
    hdr0 := 0x56782C2D#32
    hdr1 := 0x03301234#32
    fbuf := Memory.writeSpan [] off S }

/-- `stateKC` after `MCTR` = 1, `kdf kenc`, `kdf kmac`: the keys as V-KDF-1 and V-KDF-2 print them. -/
def stateKDF (off : Nat) (S : Bytes) : State :=
  { stateKC off S with
    mctr := 1#32
    kenc := Quad.ofBlock (Block.ofBe 0xDDD71220E6D820A795D78DB0ED59F034#128)
    kmac := Quad.ofBlock (Block.ofBe 0xBFD14EE3C74875F930CDFAF5FFF1A785#128)
    kve := true
    kvm := true }

/-- What holds of the state a command answers; false where it answers none. -/
def after (i : Instr) (s : State) (p : State → Bool) : Bool :=
  match exec i s with
  | .next t => p t
  | .fault _ => false
  | .refused _ => false

/-- What holds of the state a step answers; false where it answers none. -/
def afterStep (s : State) (p : State → Bool) : Bool :=
  match step s with
  | .next t => p t
  | .fault _ => false
  | .refused _ => false

/-- P16 of 95_test_vectors.md. -/
def p16 : Bytes := hex 16 0x2F2F040439300000042B1A0000002F2F

/-! ### Well-formedness: each check refuses an ill-formed command -/

theorem test_wf_accepts : (Instr.cmacv .kmac 255 511 16 true).wf = true := by decide
theorem test_wf_crc16_off : (Instr.crc16 256 0).wf = false := by decide
theorem test_wf_crc16_len : (Instr.crc16 0 512).wf = false := by decide
theorem test_wf_bcd_off : (Instr.bcd 256 1).wf = false := by decide
theorem test_wf_bcd_wid : (Instr.bcd 0 5).wf = false ∧ (Instr.bcd 0 0).wf = false ∧ (Instr.bcd 0 7).wf = false := by
  decide
theorem test_wf_ctr : (Instr.ctr .kconf 256 0).wf = false ∧ (Instr.ctr .kconf 0 512).wf = false := by decide
theorem test_wf_cbciv : (Instr.cbciv .kconf 256 0).wf = false ∧ (Instr.cbciv .kconf 0 512).wf = false := by decide
theorem test_wf_cbcz : (Instr.cbcz .kenc 256 0).wf = false ∧ (Instr.cbcz .kenc 0 16).wf = false := by decide
theorem test_wf_cmac : (Instr.cmac .kmac 256 0 true).wf = false ∧ (Instr.cmac .kmac 0 512 true).wf = false := by
  decide
theorem test_wf_cmacv : (Instr.cmacv .kmac 256 0 2 true).wf = false ∧ (Instr.cmacv .kmac 0 512 2 true).wf = false ∧
    (Instr.cmacv .kmac 0 0 3 true).wf = false := by decide
/-- The completion of an ill-formed command is `ILLEGAL` (log 8). -/
theorem test_ill_formed_is_illegal : after (.crc16 256 0) State.reset (fun t => t.err == .illegal) = true := by decide

/-! ### Decoding: words written field by field from R78, R79 and R89, top bits first -/

theorem test_decode_nop : decode (0b00000000000000000000000000000000#32) = .ok .nop := by decide
theorem test_decode_crc16 :
    decode (0b000#3 ++ 0b0#1 ++ 0b000#3 ++ 0b000001001#9 ++ 0b00000111#8 ++ 0b00#2 ++ 0b000001#6) =
      .ok (.crc16 7 9) := by decide
theorem test_decode_bcd :
    decode (0b000#3 ++ 0b0000000000#10 ++ 0b110#3 ++ 0b11111100#8 ++ 0b00#2 ++ 0b000010#6) = .ok (.bcd 252 6) := by
  decide
theorem test_decode_ctr :
    decode (0b000#3 ++ 0b0#1 ++ 0b000#3 ++ 0b100000000#9 ++ 0b00000001#8 ++ 0b01#2 ++ 0b010000#6) =
      .ok (.ctr .kenc 1 256) := by decide
theorem test_decode_cbciv :
    decode (0b000#3 ++ 0b0#1 ++ 0b000#3 ++ 0b000010001#9 ++ 0b00000000#8 ++ 0b10#2 ++ 0b010001#6) =
      .ok (.cbciv .kmac 0 17) := by decide
theorem test_decode_cbcz :
    decode (0b000#3 ++ 0b000000000#9 ++ 0b1111#4 ++ 0b00100001#8 ++ 0b01#2 ++ 0b010010#6) = .ok (.cbcz .kenc 33 15) := by
  decide
theorem test_decode_cmac :
    decode (0b000#3 ++ 0b1#1 ++ 0b000#3 ++ 0b000001011#9 ++ 0b00000000#8 ++ 0b00#2 ++ 0b100000#6) =
      .ok (.cmac .kconf 0 11 true) := by decide
theorem test_decode_cmacv :
    decode (0b000#3 ++ 0b1#1 ++ 0b010#3 ++ 0b000010110#9 ++ 0b00011011#8 ++ 0b10#2 ++ 0b100001#6) =
      .ok (.cmacv .kmac 27 22 8 true) := by decide
theorem test_decode_kdf :
    decode (0b000#3 ++ 0b000000000000000000#18 ++ 0b01#2 ++ 0b1#1 ++ 0b00#2 ++ 0b110000#6) = .ok (.kdf .kmac) := by
  decide
theorem test_decode_kclr :
    decode (0b000#3 ++ 0b00000000000000000000#20 ++ 0b1#1 ++ 0b00#2 ++ 0b110001#6) = .ok (.kclr true) := by decide
/-- Reserved encodings, each rejected for its reason: OPC 0x03, bit 29, `SEL` 3 (V-KDF-7), a bit of `NOP` (V-CTL-2). -/
theorem test_decode_no_row : decode 0x00000003#32 = .error .noRow ∧ decode 0x20090001#32 = .error .noRow ∧
    decode 0x00000630#32 = .error .noRow ∧ decode 0x00000100#32 = .error .noRow := by decide
/-- `KSEL` 3 (V-CTR-8), `WID` 5 (V-BCD-16), `MLC` 5 (V-CMACV-9). -/
theorem test_decode_reserved_fields : decode 0x000A00D0#32 = .error .reservedKsel ∧
    decode 0x00050002#32 = .error .reservedWid ∧ decode 0x1A1000A1#32 = .error .reservedMlc := by decide
theorem test_decodeTableWord : decodeTableWord 32 0x00090001 = some (.crc16 0 9) ∧
    decodeTableWord 32 0x00000003 = none := by decide

/-! ### The commands -/

theorem test_nop : after .nop (stateKC 0 []) (fun t => t.statusWord == 0x000F1002#32) = true := by decide
/-- V-CRC-1. -/
theorem test_crc16 : after (.crc16 0 9) (stateKC 0 (hex 9 0x313233343536373839))
    (fun t => t.result == 0xC2B7#64) = true := by decide +kernel
/-- V-CRC-9b: `CRCINV` = 0. -/
theorem test_crc16_not_inverted : after (.crc16 0 7) { stateKC 0 (hex 7 0x02FF2004134413) with crcinv := false }
    (fun t => t.result == 0x22CB#64) = true := by decide +kernel
/-- V-BCD-5. -/
theorem test_bcd_negative : after (.bcd 0 4) (stateKC 0 (hex 4 0x785634F2))
    (fun t => t.result == 0xFFFFFFFFFFDC3532#64) = true := by decide
/-- V-BCD-15: 0xF in a digit that is not the top one. -/
theorem test_bcd_bad_digit : after (.bcd 0 2) { stateKC 0 (hex 2 0xF100) with result := 7#64 }
    (fun t => t.err == .baddigit && t.result == 7#64) = true := by decide
/-- V-CTR-3: 17 bytes, so the second counter block too. -/
theorem test_ctr : after (.ctr .kconf 0 17)
    { stateKC 0 (p16 ++ [0x2F#8]) with cc := 0x20#8, sn := 0x12345678#32 }
    (fun t => t.fbuf.readSpan 0 17 == some (hex 17 0x5B612631A0BF7116DA521A16F3C9FE3056)) = true := by decide +kernel
/-- V-CTR-7: no valid `KENC`. -/
theorem test_ctr_nokey : after (.ctr .kenc 0 10) (stateKC 0 p16)
    (fun t => t.err == .nokey && t.fbuf.readSpan 0 16 == some p16) = true := by decide
/-- V-CBCIV-1: byte 16 is past the whole block and stays. -/
theorem test_cbciv : after (.cbciv .kconf 0 17)
    { stateKC 0 (hex 17 0xD2D40EB837F073C53F5890068261AE222F) with acc := 1#8 }
    (fun t => t.fbuf.readSpan 0 17 == some (p16 ++ [0x2F#8]) && t.statusWord == 0x000F1102#32) = true := by
  decide +kernel
/-- V-CBCIV-4: one bit of the key flipped. -/
theorem test_cbciv_wrong_key : after (.cbciv .kconf 0 16)
    { stateKC 0 (hex 16 0xD2D40EB837F073C53F5890068261AE22) with acc := 1#8, kconf := { keyKC with w0 := 0x16157E2A#32 } }
    (fun t => t.fbuf.readSpan 0 16 == some (hex 16 0xDC51B94098B186E5F155AE8936A265E4) && t.err == .wrongkey) = true := by
  decide +kernel
/-- V-CBCZ-2: two blocks. -/
theorem test_cbcz : after (.cbcz .kenc 0 2)
    (stateKDF 0 (hex 32 0xCD096E7C7CFED10A2191F9C6BE4C0BD0171930B201093D21229C46C0ABE3F5A4))
    (fun t => t.fbuf.readSpan 0 32 == some (p16 ++ hex 16 0x0C13785634122F2F2F2F2F2F2F2F2F2F) && t.sent) = true := by
  decide +kernel
/-- V-CBCZ-3: no block, no check. -/
theorem test_cbcz_no_block : after (.cbcz .kenc 0 0) (stateKDF 0 [])
    (fun t => t.statusWord == 0x000F7002#32) = true := by decide +kernel
/-- V-CMAC-1: the empty message, and the places of `MAC0` and `MAC3`. -/
theorem test_cmac_empty : after (.cmac .kconf 0 0 false) (stateKC 0 [])
    (fun t => t.mac.w0 == 0x29691DBB#32 && t.mac.w3 == 0x4667759B#32) = true := by decide +kernel
/-- V-CMAC-5: the prefix of `MCL` and `MCTR`. -/
theorem test_cmac_prefix : after (.cmac .kconf 0 11 true)
    { stateKC 0 (hex 16 0x6BC1BEE22E409F96E93D7E117393172A) with mcl := 0x25#8, mctr := 1#32 }
    (fun t => t.mac.bytes == hex 16 0xCDA7F71047FFFFC56BCB62B38EF420CB) = true := by decide +kernel
/-- V-CMACV-5: a byte past the declared length differs, still a match. -/
theorem test_cmacv : after (.cmacv .kmac 0 16 8 true)
    { stateKDF 0 p16 with mcl := 0x25#8, expmac := ⟨0xD6A12564#32, 0x7446D0E7#32, 0xB7#32, 0#32⟩ }
    (fun t => t.statusWord == 0x000F7202#32) = true := by decide +kernel
/-- V-CMACV-4: a compared byte differs; `MAC` is written all the same. -/
theorem test_cmacv_mismatch : after (.cmacv .kmac 0 16 8 true)
    { stateKDF 0 p16 with mcl := 0x25#8, expmac := ⟨0xD6A12565#32, 0x7446D0E7#32, 0#32, 0#32⟩ }
    (fun t => t.statusWord == 0x000F7042#32 && t.mac.bytes == hex 16 0x6425A1D6E7D0467448A9E01045301A29) = true := by
  decide +kernel
/-- V-KDF-1. -/
theorem test_kdf_kenc : after (.kdf .kenc) { stateKC 0 [] with mctr := 1#32 }
    (fun t => t.kenc.bytes == hex 16 0xDDD71220E6D820A795D78DB0ED59F034 && t.statusWord == 0x000F3002#32) = true := by
  decide +kernel
/-- V-KDF-2. -/
theorem test_kdf_kmac : after (.kdf .kmac) { stateKC 0 [] with mctr := 1#32 }
    (fun t => t.kmac.bytes == hex 16 0xBFD14EE3C74875F930CDFAF5FFF1A785 && t.mac == .zero) = true := by decide +kernel
/-- V-CTL-3: without `ALL`, `KCONF` stays. -/
theorem test_kclr : after (.kclr false) (stateKDF 0 [])
    (fun t => t.statusWord == 0x000F1002#32 && t.kenc == .zero && t.kconf == keyKC) = true := by decide
/-- V-CTL-5. -/
theorem test_kclr_all : after (.kclr true) (stateKDF 0 [])
    (fun t => t.statusWord == 0x00000002#32 && t.kconf == .zero) = true := by decide

/-! ### The host's side -/

/-- A launch then a completion; `CMD` reads the word (R27, R142). -/
theorem test_step_launch : afterStep { State.reset with script := [.write .word 0x00C 0x00000031#32] }
    (fun t => t.eng == .run 0x00000031#32 && t.regRead 0x00C == 0x00000031#32 && t.regRead 0x008 == 1#32) = true := by
  decide
theorem test_step_withFetchWord : afterStep (State.reset.withFetchWord 32 0x00000131)
    (fun t => t.regRead 0x008 == 2#32 && t.regRead 0x00C == 0x00000131#32) = true := by decide
/-- `lw FB+4` of P16 is 12345 (L1.1, R54). -/
theorem test_step_read_word : afterStep { stateKC 0 p16 with script := [.read .word 0x104] }
    (fun t => t.rdata == some 12345#32) = true := by decide +kernel
/-- A byte write to the register area is a bus error (R56), and reading reset FBUF a fault (R75). -/
theorem test_step_bus_error : afterStep { State.reset with script := [.write .byte 0x004 1#32] }
    (fun t => t.regRead 0x008 == 4#32 && t.regRead 0x004 == 2#32) = true := by decide
theorem test_step_unwritten : hostRead State.reset .byte 0x100 = .fault .unwrittenByte := by rfl
/-- A failed `chk` stops the host program (R95); a reset still comes. -/
theorem test_step_chk : afterStep { State.reset with script := [.chk 0x008 2#32 2#32, .poll, .assertReset] }
    (fun t => t.stopped && t.script == [.assertReset]) = true := by decide
/-- The check value of R110, both ways. -/
theorem test_aes : (let K := Block.ofBe 0x000102030405060708090A0B0C0D0E0F#128
    let P := Block.ofBe 0x00112233445566778899AABBCCDDEEFF#128
    let C := Block.ofBe 0x69C4E0D86A7B0430D8CDB78070B4C55A#128
    aesEnc K P = C ∧ aesDec K C = P) := by decide +kernel
/-- The assembler form of two rows of R95. -/
theorem test_asm : asmText (.cmacv .kmac 27 22 8 true) = "cmacv.p kmac, 27, 22, 8" ∧
    (expandPseudo .kdfBoth).map asmText = ["kdf kenc", "kdf kmac"] := by decide +kernel

/-! ### Witnesses: for each statement with hypotheses, values that meet them, for each clause at an end of its range -/

/-- A command for which `after` holds answers a next state. -/
theorem answers {i : Instr} {s : State} {p : State → Bool} (h : after i s p = true) :
    ∃ t, exec i s = .next t ∧ p t = true := by
  unfold after at h
  split at h
  · exact ⟨_, ‹_›, h⟩
  · cases h
  · cases h

theorem answersStep {s : State} {p : State → Bool} (h : afterStep s p = true) : ∃ t, step s = .next t ∧ p t = true := by
  unfold afterStep at h
  split at h
  · exact ⟨_, ‹_›, h⟩
  · cases h
  · cases h

/-- The state `s` while the engine runs the word w. -/
def running (w : Word) (s : State) : State := { s with eng := .run w, cmdLast := w }

theorem witness_DecodeInvertsEncode : (Instr.cbcz .kmac 255 15).wf = true ∧ (Instr.bcd 255 6).wf = true := by decide

theorem witness_EncodeInvertsDecode : decode 0x18FFFFA1#32 = .ok (.cmacv .kmac 255 255 16 true) := by decide

theorem witness_AtMostOneRowSelects : Op.kdf.selects 0x00000330#32 = true := by decide

theorem witness_ReservedEncodingsAreIllegal : LegalWord 0x0000003F#32 = false ∧ LegalWord 0x20000000#32 = false := by
  decide

theorem witness_StepRunsTheDecodedCommand :
    decode 0x00000131#32 = .ok (.kclr true) ∧ (running 0x00000131#32 State.reset).eng = .run 0x00000131#32 ∧
      (running 0x00000131#32 State.reset).script = [] ∧
      { running 0x00000131#32 State.reset with script := [.complete, .poll] }.script = [.complete, .poll] := by decide

theorem witness_CompletionEndsTheCommand :
    (running 0x00000131#32 State.reset).eng = .run 0x00000131#32 ∧ State.reset.eng = .idle := by decide

theorem witness_NothingCancelsACommand (e : Event)
    (he : e ∈ [.write .word 0x008 0xFFFFFFFF#32, .write .word 0x00C 0#32, .read .byte 0x1FF, .releaseReset]) :
    (running 0x00000131#32 State.reset).resetIdle ∧ (running 0x00000131#32 State.reset).eng = .run 0x00000131#32 ∧
      e ≠ .complete ∧ e ≠ .poll ∧ e ≠ .assertReset ∧
      ∃ t, step { running 0x00000131#32 State.reset with script := [e] } = .next t := by
  simp only [List.mem_cons, List.not_mem_nil, or_false] at he
  rcases he with rfl | rfl | rfl | rfl
  all_goals exact ⟨fun h => (by cases h), rfl, by decide, by decide, by decide,
    (answersStep (p := fun _ => true) (by decide)).imp fun _ h => h.1⟩

theorem witness_PrechecksInOrder : decode 0x00000003#32 = .error .noRow ∧
    (decode 0x0002FF01#32 = .ok (.crc16 255 2) ∧ spanOf (.crc16 255 2) = some (255, 2) ∧ 256 < 255 + 2) ∧
    (decode 0x01000050#32 = .ok (.ctr .kenc 0 256) ∧ (0 + 256 ≤ 256 ∧ spanOf (.ctr .kenc 0 256) = some (0, 256)) ∧
      keyUsed (.ctr .kenc 0 256) = some .kenc ∧ (stateKC 0 []).keyValid .kenc = false) := by decide

/-- One run for each code of the table of R137 that a well-formed command can end with. -/
theorem witness_ErrorCodesByCommand :
    (∃ t, exec (.crc16 255 2) State.reset = .next t ∧ (t.err == .range) = true) ∧
    (∃ t, exec (.kdf .kenc) State.reset = .next t ∧ (t.err == .nokey) = true) ∧
    (∃ t, exec (.cmacv .kconf 0 0 2 false) (stateKC 0 []) = .next t ∧ (t.err == .badmac) = true) ∧
    (∃ t, exec (.cbciv .kconf 0 16) (stateKC 0 p16) = .next t ∧ (t.err == .wrongkey) = true) ∧
    (∃ t, exec (.cbcz .kconf 0 1) (stateKC 0 p16) = .next t ∧ (t.err == .wrongkey) = true) ∧
    (∃ t, exec (.bcd 0 1) (stateKC 0 [0xA0#8]) = .next t ∧ (t.err == .baddigit) = true) :=
  ⟨answers (p := fun t => t.err == .range) (by decide), answers (p := fun t => t.err == .nokey) (by decide),
    answers (p := fun t => t.err == .badmac) (by decide +kernel),
    answers (p := fun t => t.err == .wrongkey) (by decide +kernel),
    answers (p := fun t => t.err == .wrongkey) (by decide +kernel),
    answers (p := fun t => t.err == .baddigit) (by decide)⟩

theorem witness_LaunchLatchesTheWord : State.reset.irqLevel ∧ State.reset.eng = .idle ∧
    (running 0#32 State.reset).irqLevel ∧ (running 0#32 State.reset).eng = .run 0#32 ∧
    decode 0x00000003#32 = .error .noRow := ⟨rfl, rfl, rfl, rfl, by decide⟩

theorem witness_KconfWriteDropsDerivedKeys : (stateKDF 0 []).eng = .idle ∧ (stateKDF 0 []).irqLevel := ⟨rfl, rfl⟩

theorem witness_ReservedReadsZeroAndIgnoresWrites : 0x0FC < 256 ∧ 0x0FC % 4 = 0 ∧ (stateKDF 0 []).eng = .idle ∧
    (stateKDF 0 []).irqLevel ∧ regAt 0x0FC = none ∧ regAt 0x018 = none ∧ (0x08C < 256 ∧ 0x08C % 4 = 0) ∧
    (0x07C < 256 ∧ 0x07C % 4 = 0) := ⟨by decide, by decide, rfl, rfl, by decide, by decide, by decide, by decide⟩

theorem witness_HostWritesLeaveEngineRegisters : ∀ j, Reg.aflmctr ≠ .kconf j := by decide

theorem witness_WidthsAndAlignment : (stateKC 252 (hex 4 0x01020304)).eng = .idle ∧
    (stateKC 252 (hex 4 0x01020304)).irqLevel ∧
    (0x0FF < 256 ∧ (Width.byte ≠ .word ∨ 0x0FF % 4 ≠ 0)) ∧ (0x0FD < 256 ∧ 0x0FD % 4 ≠ 0) ∧
    (0x0FC < 256 ∧ 0x0FC % 4 = 0) ∧
    (256 ≤ 0x1FC ∧ 0x1FC < 512 ∧ 0x1FC % Width.word.bytes = 0 ∧ (hex 4 0x01020304).length = Width.word.bytes ∧
      (stateKC 252 (hex 4 0x01020304)).fbuf.Holds (0x1FC - 256) (hex 4 0x01020304)) ∧
    (256 ≤ 0x1FF ∧ 0x1FF < 512 ∧ 0x1FF % Width.half.bytes ≠ 0) :=
  ⟨rfl, rfl, by decide, by decide, by decide,
    ⟨by decide, by decide, by decide, by decide, by unfold Memory.Holds; decide +kernel⟩, by decide⟩

theorem witness_MixedWidthViewsAgree : (stateKC 252 (hex 4 0x01020304)).eng = .idle ∧
    (stateKC 252 (hex 4 0x01020304)).fbuf.wf ∧ 63 < 64 ∧
    (stateKC 252 (hex 4 0x01020304)).fbuf.read (4 * 63) = some 0x01#8 ∧
    (stateKC 252 (hex 4 0x01020304)).fbuf.read (4 * 63 + 1) = some 0x02#8 ∧
    (stateKC 252 (hex 4 0x01020304)).fbuf.read (4 * 63 + 2) = some 0x03#8 ∧
    (stateKC 252 (hex 4 0x01020304)).fbuf.read (4 * 63 + 3) = some 0x04#8 ∧
    (127 < 128 ∧ (stateKC 252 (hex 4 0x01020304)).fbuf.read (2 * 127) = some 0x03#8 ∧
      (stateKC 252 (hex 4 0x01020304)).fbuf.read (2 * 127 + 1) = some 0x04#8) ∧ 255 < 256 := by decide +kernel

theorem witness_FbufStoreWritesExactlyItsBytes : (stateKC 0 p16).eng = .idle ∧ (stateKC 0 p16).fbuf.wf ∧
    (stateKC 0 p16).irqLevel ∧ 252 < 256 ∧ 252 % Width.word.bytes = 0 ∧ 255 % Width.byte.bytes = 0 :=
  ⟨rfl, by decide +kernel, rfl, by decide, by decide, by decide⟩

theorem witness_BusErrorOnlySetsBerr : State.reset.irqLevel ∧ 0x1FF < 512 ∧ readRefused State.reset .half 0x1FF = true ∧
    writeRefused State.reset .half 0x1FF = true ∧ readRefused State.reset .byte 0x000 = true :=
  ⟨rfl, by decide, by decide, by decide, by decide⟩

theorem witness_BusyLockout : (running 0#32 State.reset).eng = .run 0#32 ∧ (running 0#32 State.reset).irqLevel ∧
    0x00C ∈ [0x000, 0x008, 0x00C] ∧ ¬ (Width.word = .word ∧ 0x004 ∈ [0x000, 0x008, 0x00C]) ∧
    ¬ (Width.byte = .word ∧ 0x1FF = 0x008) :=
  ⟨rfl, rfl, by decide, by decide, by decide⟩

theorem witness_ReadsHaveNoSideEffect : State.reset.irqLevel ∧ (∃ t, hostRead State.reset .word 0x000 = .next t) ∧
    ∃ t, hostRead State.reset .byte 0x000 = .next t := ⟨rfl, ⟨_, rfl⟩, ⟨_, rfl⟩⟩

theorem witness_UnwrittenByteFaults :
    ((stateKC 252 [1#8]).eng = .idle ∧ 0x1FC % Width.word.bytes = 0 ∧ 0x1FC < 0x200 ∧ 3 < Width.word.bytes ∧
      (stateKC 252 [1#8]).fbuf.read (0x1FC - 0x100 + 3) = none) ∧
    (precheck (stateKC 252 [1#8]) (.crc16 252 4) = none ∧ spanOf (.crc16 252 4) = some (252, 4) ∧
      (stateKC 252 [1#8]).fbuf.read (252 + 3) = none) := by decide +kernel

theorem witness_InterruptRisesAndFalls : State.reset.eng = .idle ∧ (0x00000002#32).getLsbD 1 = true := by decide

/-- A state with four bytes up to the end of FBUF. -/
theorem witness_Crc16Completes : 252 < 256 ∧ 252 + 4 ≤ 256 ∧ (hex 4 0x78563412).length = 4 ∧
    (stateKC 252 (hex 4 0x78563412)).fbuf.Holds 252 (hex 4 0x78563412) :=
  ⟨by decide, by decide, by decide, by unfold Memory.Holds; decide +kernel⟩

theorem witness_BcdCompletes : (252 < 256 ∧ 4 ∈ [1, 2, 3, 4, 6] ∧ 252 + 4 ≤ 256 ∧ (hex 4 0x78563412).length = 4 ∧
      (stateKC 252 (hex 4 0x78563412)).fbuf.Holds 252 (hex 4 0x78563412) ∧
      bcdValue (hex 4 0x78563412) = some 12345678) ∧
    ((stateKC 252 (hex 4 0x7A563412)).fbuf.Holds 252 (hex 4 0x7A563412) ∧ bcdValue (hex 4 0x7A563412) = none) :=
  ⟨⟨by decide, by decide, by decide, by decide, by unfold Memory.Holds; decide +kernel, by decide⟩,
    by unfold Memory.Holds; decide +kernel, by decide⟩

/-- A block up to the end of FBUF, with every key valid: the hypotheses of `CTR`, `CBCIV`, `CBCZ`, `CMAC`, `CMACV`. -/
theorem block_at_end : 240 < 256 ∧ 240 + 16 ≤ 256 ∧ p16.length = 16 ∧ (stateKDF 240 p16).fbuf.wf ∧
    (stateKDF 240 p16).fbuf.Holds 240 p16 ∧ ∀ key, (stateKDF 240 p16).keyValid key = true :=
  ⟨by decide, by decide, by decide, by decide +kernel, by unfold Memory.Holds; decide +kernel,
    fun key => by cases key <;> rfl⟩

theorem witness_CtrCompletes : 240 < 256 ∧ 240 + 16 ≤ 256 ∧ p16.length = 16 ∧ (stateKDF 240 p16).fbuf.wf ∧
    (stateKDF 240 p16).fbuf.Holds 240 p16 ∧ ∀ key, (stateKDF 240 p16).keyValid key = true := block_at_end

/-- A whole block, and a span of 15 bytes without one. -/
theorem witness_CbcivCompletes : (240 < 256 ∧ 240 + 16 ≤ 256 ∧ p16.length = 16 ∧ (stateKDF 240 p16).fbuf.wf ∧
      (stateKDF 240 p16).fbuf.Holds 240 p16 ∧ ∀ key, (stateKDF 240 p16).keyValid key = true) ∧
    ((p16.take 15).length = 15 ∧ (stateKDF 240 p16).fbuf.Holds 240 (p16.take 15)) :=
  ⟨block_at_end, by decide, by unfold Memory.Holds; decide +kernel⟩

/-- One block, and none. -/
theorem witness_CbczCompletes : (240 < 256 ∧ 1 < 16 ∧ 240 + 16 * 1 ≤ 256 ∧ p16.length = 16 * 1 ∧
      (stateKDF 240 p16).fbuf.wf ∧ (stateKDF 240 p16).fbuf.Holds 240 p16 ∧
      (stateKDF 240 p16).keyValid .kenc = true) ∧
    (255 < 256 ∧ 0 < 16 ∧ 255 + 16 * 0 ≤ 256 ∧ ([] : Bytes).length = 16 * 0 ∧ (stateKDF 240 p16).fbuf.Holds 255 []) :=
  ⟨⟨by decide, by decide, by decide, by decide, block_at_end.2.2.2.1, block_at_end.2.2.2.2.1, rfl⟩,
    by decide, by decide, by decide, by decide, by unfold Memory.Holds; decide⟩

theorem witness_CmacCompletes : 240 < 256 ∧ 240 + 16 ≤ 256 ∧ p16.length = 16 ∧
    (stateKDF 240 p16).fbuf.Holds 240 p16 ∧ (stateKDF 240 p16).keyValid .kmac = true :=
  ⟨by decide, by decide, by decide, block_at_end.2.2.2.2.1, rfl⟩

theorem witness_CmacvCompletes : 240 < 256 ∧ 240 + 16 ≤ 256 ∧ 2 ∈ [2, 4, 8, 12, 16] ∧ 16 ∈ [2, 4, 8, 12, 16] ∧
    p16.length = 16 ∧ (stateKDF 240 p16).fbuf.Holds 240 p16 ∧ (stateKDF 240 p16).keyValid .kmac = true :=
  ⟨by decide, by decide, by decide, by decide, by decide, block_at_end.2.2.2.2.1, rfl⟩

theorem witness_KdfCompletes : (stateKC 0 []).kvc = true := by decide

theorem witness_NonStoringCommandsKeepFbuf : (∃ t, exec .nop State.reset = .next t) ∧
    (∃ t, exec (.crc16 0 16) (stateKDF 0 p16) = .next t) ∧ (∃ t, exec (.bcd 4 4) (stateKDF 0 p16) = .next t) ∧
    (∃ t, exec (.cmac .kmac 0 16 true) (stateKDF 0 p16) = .next t) ∧
    (∃ t, exec (.cmacv .kmac 0 16 8 true) (stateKDF 0 p16) = .next t) ∧
    (∃ t, exec (.kdf .kmac) (stateKDF 0 p16) = .next t) ∧ (∃ t, exec (.kclr true) (stateKDF 0 p16) = .next t) := by
  have h : ∀ i s, after i s (fun _ => true) = true → ∃ t, exec i s = .next t :=
    fun i s hi => (answers hi).imp fun _ h => h.1
  exact ⟨h _ _ (by decide), h _ _ (by decide +kernel), h _ _ (by decide +kernel), h _ _ (by decide +kernel),
    h _ _ (by decide +kernel), h _ _ (by decide +kernel), h _ _ (by decide +kernel)⟩

theorem witness_CipherFrame : (stateKDF 0 p16).fbuf.wf ∧ (∃ t, exec (.ctr .kenc 0 15) (stateKDF 0 p16) = .next t) ∧
    (∃ t, exec (.cbciv .kenc 0 16) (stateKDF 0 p16) = .next t) ∧
    (∃ t, exec (.cbcz .kenc 0 1) (stateKDF 0 p16) = .next t) := by
  have h : ∀ i s, after i s (fun _ => true) = true → ∃ t, exec i s = .next t :=
    fun i s hi => (answers hi).imp fun _ h => h.1
  exact ⟨by decide +kernel, h _ _ (by decide +kernel), h _ _ (by decide +kernel), h _ _ (by decide +kernel)⟩

theorem witness_CommandsKeepHostRegisters : ∃ t, exec (.kclr true) (stateKDF 0 p16) = .next t := ⟨_, rfl⟩

theorem witness_OnlyKdfAndKclrWriteKeys : (∃ t, exec (.kdf .kenc) (stateKC 0 []) = .next t) ∧
    (∃ t, exec (.kdf .kmac) (stateKC 0 []) = .next t) ∧ (∃ t, exec (.kclr false) (stateKDF 0 []) = .next t) ∧
    (∃ t, exec .nop (stateKDF 0 []) = .next t) ∧ (∀ dc, Instr.nop ≠ .kdf dc) ∧ ∀ all, Instr.nop ≠ .kclr all :=
  ⟨(answers (p := fun _ => true) (by decide +kernel)).imp fun _ h => h.1,
    (answers (p := fun _ => true) (by decide +kernel)).imp fun _ h => h.1, ⟨_, rfl⟩, ⟨_, rfl⟩,
    fun _ h => (by cases h), fun _ h => (by cases h)⟩

theorem witness_OnlyTheirCommandsWriteResultAndMac :
    (∃ t, exec (.bcd 0 1) (stateKC 0 [0x42#8]) = .next t ∧ (t.result == 42#64) = true) ∧
    ∃ t, exec (.cmac .kconf 0 0 false) (stateKC 0 []) = .next t ∧ (t.mac.w0 == 0x29691DBB#32) = true :=
  ⟨answers (p := fun t => t.result == 42#64) (by decide),
    answers (p := fun t => t.mac.w0 == 0x29691DBB#32) (by decide +kernel)⟩

theorem witness_SentAndMatchFrame : ∃ t, exec (.cbcz .kenc 0 0) (stateKDF 0 []) = .next t ∧ t.sent = false :=
  (answers (p := fun t => !t.sent) (by decide)).imp fun _ h => ⟨h.1, by simpa using h.2⟩

/-- All digits decimal; a top digit 0xF; a bad low digit of the top byte, a bad top digit, a bad digit below. -/
theorem witness_BcdValueOfDigits : (∀ d ∈ [(8, 7), (6, 5)], d.1 < 16 ∧ d.2 < 16 ∧ d.1 ≤ 9 ∧ d.2 ≤ 9) ∧
    (4 < 16 ∧ 4 ≤ 9) ∧ (3 < 16 ∧ 3 ≤ 9) ∧ (15 < 16 ∧ 15 = 15) ∧ (9 < 10 ∧ 10 < 16) ∧
    (14 < 16 ∧ 9 < 14 ∧ 14 ≠ 15) ∧ ∃ d ∈ [(8, 7), (15, 5)], 9 < d.1 ∨ 9 < d.2 := by decide

theorem witness_BcdValueFits : 1 ≤ (hex 6 0x9999999999F9).length ∧
    bcdValue (hex 6 0x9999999999F9) = some (-99999999999) := by decide

theorem witness_CtrTwiceRestores : (stateKDF 0 p16).fbuf.wf ∧
    ∃ t, exec (.ctr .kenc 0 16) (stateKDF 0 p16) = .next t ∧ (t.err == .ok) = true :=
  ⟨by decide +kernel, answers (p := fun t => t.err == .ok) (by decide +kernel)⟩

/-- P16 encrypted as V-CBCIV-1 has it, up to the end of FBUF. -/
theorem witness_CbcRoundTrip :
    let s := { stateKC 240 (hex 16 0xD2D40EB837F073C53F5890068261AE22) with acc := 1#8 }
    240 < 256 ∧ 240 + 16 * 1 ≤ 256 ∧ p16.length = 16 * 1 ∧ p16[0]? = some 0x2F#8 ∧ p16[1]? = some 0x2F#8 ∧ s.fbuf.wf ∧
      s.keyValid .kconf = true ∧ s.fbuf.Holds 240 (cbcEncrypt (s.keyOf .kconf) s.iv5 p16 1) := by
  have h : cbcEncrypt keyKC.toBlock ({ stateKC 240 [] with acc := 1#8 } : State).iv5 p16 1 =
      hex 16 0xD2D40EB837F073C53F5890068261AE22 := by decide +kernel
  refine ⟨by decide, by decide, by decide, by decide, by decide, by decide +kernel, by decide, ?_⟩
  show Memory.Holds _ 240 (cbcEncrypt keyKC.toBlock ({ stateKC 240 [] with acc := 1#8 } : State).iv5 p16 1)
  rw [h]
  unfold Memory.Holds
  decide +kernel

/-- The tag of the empty message as `EXPMAC` (V-CMAC-1): one compared byte flipped, and one past the first four. -/
theorem witness_ComparedMacBytesDecide :
    let s := { stateKC 0 [] with expmac := ⟨0x29691DBB#32, 0#32, 0#32, 0#32⟩ }
    (∃ t, exec (.cmacv .kconf 0 0 4 false) s = .next t ∧ (t.err == .ok) = true) ∧
      (3 < 4 ∧ (⟨0x28691DBB#32, 0#32, 0#32, 0#32⟩ : Quad).bytes[3]? ≠ s.expmac.bytes[3]?) ∧
      ∀ k, k < 4 → (⟨0x29691DBB#32, 1#32, 0#32, 0#32⟩ : Quad).bytes[k]? = s.expmac.bytes[k]? :=
  ⟨answers (p := fun t => t.err == .ok) (by decide +kernel), by decide, by decide⟩

theorem witness_ResetAbandonsTheCommand :
    { running 0x00000131#32 (stateKDF 0 p16) with script := [.assertReset, .releaseReset] }.script =
      .assertReset :: .releaseReset :: [] := rfl

/-- A state with both derived keys valid that meets the invariant. -/
theorem inv_stateKDF (s : State) (h : s = { stateKDF 0 p16 with script := s.script }) : s.Inv := by
  have k : Quad.ofBlock (Block.ofBe 0xDDD71220E6D820A795D78DB0ED59F034#128) =
        Quad.ofBlock (cmac keyKC.toBlock (kdfInput .kenc 1#32 [0x78#8, 0x56#8, 0x34#8, 0x12#8])) ∧
      Quad.ofBlock (Block.ofBe 0xBFD14EE3C74875F930CDFAF5FFF1A785#128) =
        Quad.ofBlock (cmac keyKC.toBlock (kdfInput .kmac 1#32 [0x78#8, 0x56#8, 0x34#8, 0x12#8])) := by decide +kernel
  have m : (Memory.writeSpan [] 0 p16).wf := by decide +kernel
  rw [h]
  refine ⟨m, rfl, fun w hw => (by cases hw), ⟨fun h => (by cases h), fun h => (by cases h)⟩,
    ⟨fun _ => ⟨rfl, _, _, k.1, rfl⟩, fun _ => ⟨rfl, _, _, k.2, rfl⟩⟩,
    ⟨fun h => (by cases h), fun h => (by cases h), fun h => (by cases h.1)⟩, fun _ => rfl⟩

theorem witness_InvariantKeptByEveryStep :
    { stateKDF 0 p16 with script := [.write .word 0x00C 0x00000130#32] }.Inv ∧
      ∃ t, step { stateKDF 0 p16 with script := [.write .word 0x00C 0x00000130#32] } = .next t :=
  ⟨inv_stateKDF _ rfl, (answersStep (p := fun _ => true) (by decide)).imp fun _ h => h.1⟩

theorem witness_IrqIsTheLevel :
    ((∃ t, hostRead State.reset .word 0x008 = .next t) ∧ (∃ t, hostWrite State.reset .byte 0x1FF 1#32 = .next t) ∧
      (∃ t, hostCheck State.reset 0x008 0#32 0#32 = .next t) ∧ ∃ t, completion 0x00000000#32 State.reset = .next t) ∧
    State.reset.irqLevel ∧ ∃ t, step { State.reset with script := [.write .word 0x004 1#32] } = .next t :=
  ⟨⟨⟨_, rfl⟩, ⟨_, rfl⟩, ⟨_, rfl⟩, ⟨_, rfl⟩⟩, rfl,
    (answersStep (p := fun _ => true) (by decide)).imp fun _ h => h.1⟩

theorem witness_StatusIsNeverAMixture : (running 0x00000131#32 (stateKC 0 [])).Inv ∧
    ((running 0x00000131#32 (stateKC 0 [])).regRead 0x008).getLsbD 0 = true := by
  refine ⟨⟨by decide, rfl, fun w hw => ?_, ⟨fun _ => rfl, fun _ => rfl⟩, ⟨fun h => (by cases h), fun h => (by cases h)⟩,
    ⟨fun h => (by cases h), fun h => (by cases h), fun h => (by cases h.1)⟩, fun h => (by cases h)⟩, by decide⟩
  cases hw
  exact ⟨rfl, rfl, rfl, rfl, rfl⟩

/-- Three accesses during a command that ends, and during one that faults on an unwritten byte. -/
theorem witness_LatencyDoesNotChangeTheResult :
    let es : List Event := [.read .word 0x008, .write .word 0x008 2#32, .read .byte 0x1FF]
    (∀ e ∈ es, e.isAccess = true) ∧
      ({ running 0x00000131#32 (stateKDF 0 []) with script := es }.eng = .run 0x00000131#32) ∧
      (running 0x00000131#32 (stateKDF 0 [])).rst = false ∧
      (∃ u, completion 0x00000131#32 (running 0x00000131#32 (stateKDF 0 [])) = .next u) ∧
      completion 0x00010001#32 (running 0x00010001#32 State.reset) = .fault .unwrittenByte :=
  ⟨by decide, rfl, rfl, ⟨_, rfl⟩, rfl⟩

/-- Two instances, the second right after the first, and the first address of the second. -/
theorem witness_InstancesShareNothing :
    let p : Platform := [⟨0x1000, 0, State.reset⟩, ⟨0x1200, 1, State.reset⟩]
    p.wf ∧ (∃ q, p.step 0 = .next q) ∧ p[0]? = some ⟨0x1000, 0, State.reset⟩ ∧
      (⟨0x1000, 0, State.reset⟩ : BlockInstance).holds 0x1200 = false ∧
      (⟨0x1000, 0, State.reset⟩ : BlockInstance).holds 0x11FF = true ∧
      (⟨0x1200, 1, State.reset⟩ : BlockInstance).holds 0x1200 = true :=
  ⟨by decide, ⟨_, rfl⟩, rfl, by decide, by decide, by decide⟩

end Sys2Proof.Tests
end

section
/-! Proofs of the scope's statements (00_scope.md R9): a command's result does not depend on its latency, and the
instances of a platform share nothing. -/

namespace Sys2Proof.Machine

/-! ### What the host can change while a command runs -/

/-- The state with other values of what host accesses can change while a command runs: `DONE` and `BERR` (the
acknowledgement R26, the bus error R70), `irq`, and the data last read. -/
def State.withHostView (s : State) (done berr irq : Bool) (rdata : Option Word) : State :=
  { s with done := done, berr := berr, irq := irq, rdata := rdata }

/-- The state with other values of the part of the host's view that a completion leaves alone: `BERR` and the data last
read. -/
def State.withReadView (s : State) (berr : Bool) (rdata : Option Word) : State := { s with berr := berr, rdata := rdata }

/-- An outcome whose next state, if it has one, shows the given `BERR` and data last read. -/
def mapReadView (berr : Bool) (rdata : Option Word) :
    Host.Outcome State Fault Refusal → Host.Outcome State Fault Refusal
  | .next u => .next (u.withReadView berr rdata)
  | .fault f => .fault f
  | .refused r => .refused r

/-! ### A completion does not depend on the host's view -/

section
variable (s : State) (d b q : Bool) (r : Option Word)

/-- A completion's last act overwrites `DONE` and `irq`, so of the host's view only `BERR` and the data read are left. -/
theorem State.finish_withHostView (e : ErrCode) :
    (s.withHostView d b q r).finish e = (s.finish e).withReadView b r := rfl

theorem precheck_withHostView (i : Instr) : precheck (s.withHostView d b q r) i = precheck s i := rfl

theorem checked_withHostView (i : Instr) {body body' : Host.Outcome State Fault Refusal}
    (h : body' = mapReadView b r body) :
    checked (s.withHostView d b q r) i body' = mapReadView b r (checked s i body) := by
  unfold checked
  rw [precheck_withHostView]
  cases precheck s i with
  | none => exact h
  | some e => exact congrArg Host.Outcome.next (State.finish_withHostView s d b q r e)

theorem checked_onSpan_withHostView (i : Instr) (off n : Nat) {body body' : Bytes → Host.Outcome State Fault Refusal}
    (h : ∀ S, body' S = mapReadView b r (body S)) :
    checked (s.withHostView d b q r) i (onSpan (s.withHostView d b q r) off n body') =
      mapReadView b r (checked s i (onSpan s off n body)) := by
  refine checked_withHostView s d b q r i ?_
  show onSpan s off n body' = _
  unfold onSpan
  cases s.fbuf.readSpan off n with
  | none => rfl
  | some S => exact h S

/-- No command reads the host's view, and each ends by overwriting `DONE` and `irq`. -/
theorem exec_withHostView (i : Instr) : exec i (s.withHostView d b q r) = mapReadView b r (exec i s) := by
  cases i with
  | nop => rfl
  | crc16 => exact checked_onSpan_withHostView s d b q r _ _ _ fun _ => rfl
  | bcd => exact checked_onSpan_withHostView s d b q r _ _ _ fun S => by cases bcdValue S <;> rfl
  | ctr => exact checked_onSpan_withHostView s d b q r _ _ _ fun _ => rfl
  | cbciv => exact checked_onSpan_withHostView s d b q r _ _ _ fun _ => by rw [cbcFinish_eq, cbcFinish_eq]; rfl
  | cbcz => exact checked_onSpan_withHostView s d b q r _ _ _ fun _ => by rw [cbcFinish_eq, cbcFinish_eq]; rfl
  | cmac => exact checked_onSpan_withHostView s d b q r _ _ _ fun _ => rfl
  | cmacv => exact checked_onSpan_withHostView s d b q r _ _ _ fun _ => by rw [cmacvFinish_eq, cmacvFinish_eq]; rfl
  | kdf dc => exact checked_withHostView s d b q r _ (by cases dc <;> rfl)
  | kclr all => rw [exec_kclr, exec_kclr]; cases all <;> rfl

theorem completion_withHostView (w : Word) :
    completion w (s.withHostView d b q r) = mapReadView b r (completion w s) := by
  unfold completion
  cases decode w with
  | error e => exact congrArg Host.Outcome.next (State.finish_withHostView s d b q r .illegal)
  | ok i => exact exec_withHostView s d b q r i

end

/-- A completion is never refused: a command is not, and a word that is no command ends `ILLEGAL`. -/
theorem completion_ne_refused (w : Word) (s : State) (r : Refusal) : completion w s ≠ .refused r := by
  cases hd : decode w with
  | error e => simp [completion_error w s e hd]
  | ok i =>
    rw [completion_ok w s i hd]
    rcases exec_total i s with h | ⟨t, h⟩ <;> simp [h]

/-! ### A host access while a command runs -/

/-- While a command runs, a read that is not refused is of the register area (R64, R66). -/
theorem readRefused_busy (s : State) (wd : Width) (off : Nat) (hb : s.busy = true)
    (h : readRefused s wd off = false) : off < 256 := by
  by_contra ho
  simp [readRefused, hb, Config.fbufBase, ho] at h

theorem hostRead_busy (s : State) (wd : Width) (off : Nat) (ho : off < 512) (hb : s.busy = true) :
    ∃ d b q r, hostRead s wd off = .next (s.withHostView d b q r) := by
  cases hr : readRefused s wd off with
  | true => exact ⟨_, _, _, _, hostRead_refused s wd off ho hr⟩
  | false => exact ⟨_, _, _, _, hostRead_reg s wd off (readRefused_busy s wd off hb hr) hr⟩

/-- The one write that gets through is the acknowledgement of R26, which touches `DONE` and `BERR` only. -/
theorem hostWrite_busy (s : State) (wd : Width) (off : Nat) (v : Word) (ho : off < 512) (hb : s.busy = true) :
    ∃ d b q r, hostWrite s wd off v = .next (s.withHostView d b q r) := by
  cases hr : writeRefused s wd off with
  | true => exact ⟨_, _, _, _, hostWrite_refused s wd off v ho hr⟩
  | false =>
    obtain ⟨-, rfl⟩ := writeRefused_busy s wd off hb hr
    exact ⟨_, _, _, _, hostWrite_reg s wd 0x008 v (by decide) hr⟩

/-- A step that takes a host access while a command runs changes the host's view and nothing else (R66). -/
theorem step_access_busy (s : State) (e : Event) (rest : List Event) (w : Word) (ha : e.isAccess = true)
    (he : s.eng = .run w) (hr : s.rst = false) (hs : s.script = e :: rest) :
    ∃ d b q r, step s = .next ({ s with script := rest }.withHostView d b q r) := by
  have hb : { s with script := rest }.busy = true := State.busy_run _ w he
  unfold step
  rw [hs]
  cases e with
  | read wd off => simpa [serve, hr] using hostRead_busy _ wd off (of_decide_eq_true ha) hb
  | write wd off v => simpa [serve, hr] using hostWrite_busy _ wd off v (of_decide_eq_true ha) hb
  | complete => cases ha
  | poll => cases ha
  | chk => cases ha
  | assertReset => cases ha
  | releaseReset => cases ha

/-! ### The run through the accesses and the completion -/

theorem coreRun_one (M : Host.Core) (s : M.State) : M.run 1 s = M.step s := by
  simp only [Host.Core.run]
  cases M.step s <;> rfl

theorem coreRun_succ_of_next (M : Host.Core) (n : Nat) (s t : M.State) (h : M.step s = .next t) :
    M.run (n + 1) s = M.run n t := by
  simp only [Host.Core.run, h]

/-- A run through pending accesses and one step more is the completion, from a state that differs from the one at the
launch in the host's view. -/
theorem run_accesses_completion (es : List Event) (s : State) (w : Word) (ha : ∀ e ∈ es, e.isAccess = true)
    (he : s.eng = .run w) (hr : s.rst = false) (hs : s.script = es) :
    ∃ d b q r, Sys2Proof.core.run (es.length + 1) s = completion w ({ s with script := [] }.withHostView d b q r) := by
  induction es generalizing s with
  | nil =>
    refine ⟨s.done, s.berr, s.irq, s.rdata, ?_⟩
    have hself : { s with script := [] }.withHostView s.done s.berr s.irq s.rdata = s := by rw [← hs]; rfl
    have hstep : step s = engineStep s := by unfold step; rw [hs]
    rw [hself, ← engineStep_run s w he, ← hstep]
    exact coreRun_one Sys2Proof.core s
  | cons e rest ih =>
    obtain ⟨he', hrest⟩ := List.forall_mem_cons.mp ha
    obtain ⟨d, b, q, r, hstep⟩ := step_access_busy s e rest w he' he hr hs
    obtain ⟨d', b', q', r', hrun⟩ := ih ({ s with script := rest }.withHostView d b q r) hrest he hr rfl
    exact ⟨d', b', q', r', (coreRun_succ_of_next Sys2Proof.core _ s _ hstep).trans hrun⟩

/-- Settles O58: the accesses change only the host's view, which no completion reads. -/
theorem latencyDoesNotChangeTheResult : Obligations.LatencyDoesNotChangeTheResult := by
  intro es s w ha he hr hs
  obtain ⟨d, b, q, r, hrun⟩ := run_accesses_completion es s w ha he hr hs
  rw [completion_withHostView] at hrun
  refine ⟨fun u hu => ⟨b, r, ?_⟩, fun f hf => ?_, completion_ne_refused w _⟩
  · rw [hrun, hu]; rfl
  · rw [hrun, hf]; rfl

/-! ### The platform -/

theorem Platform.setState_eq_modify (p : Platform) (k : Nat) (s : State) :
    p.setState k s = p.modify k fun x => { x with state := s } := by
  induction p generalizing k with
  | nil => simp [Platform.setState]
  | cons x xs ih =>
    cases k with
    | zero => rfl
    | succ k => simp [Platform.setState, ih]

/-- A platform's step that answers a next platform left it as it was, or replaced the state of instance k. -/
theorem Platform.step_next (p q : Platform) (k : Nat) (h : p.step k = .next q) : q = p ∨ ∃ s, q = p.setState k s := by
  unfold Platform.step at h
  cases hk : p[k]? with
  | none => simp only [hk] at h; cases h; exact .inl rfl
  | some x =>
    simp only [hk] at h
    cases hs : Machine.step x.state with
    | next s => simp only [hs] at h; cases h; exact .inr ⟨s, rfl⟩
    | fault f => simp [hs] at h
    | refused r => simp [hs] at h

theorem Platform.step_others (p q : Platform) (k : Nat) (h : p.step k = .next q) :
    q.length = p.length ∧ ∀ j, j ≠ k → q[j]? = p[j]? := by
  obtain rfl | ⟨s, rfl⟩ := p.step_next q k h
  · exact ⟨rfl, fun _ _ => rfl⟩
  · rw [Platform.setState_eq_modify]
    exact ⟨List.length_modify .., fun j hj => List.getElem?_modify_ne _ _ hj.symm⟩

theorem BlockInstance.holds_iff (x : BlockInstance) (addr : Nat) :
    x.holds addr = true ↔ x.base ≤ addr ∧ addr < x.base + Config.windowSize := by
  simp [BlockInstance.holds]

/-- Windows begin at multiples of their size, so two that hold one address have the same base. -/
theorem BlockInstance.base_eq_of_holds (x y : BlockInstance) (addr : Nat) (hx : x.base % Config.windowSize = 0)
    (hy : y.base % Config.windowSize = 0) (ax : x.holds addr = true) (ay : y.holds addr = true) : x.base = y.base := by
  rw [BlockInstance.holds_iff] at ax ay
  simp only [Config.windowSize] at hx hy ax ay
  omega

theorem Platform.index_eq_of_base_eq (p : Platform) (j k : Nat) (x y : BlockInstance) (hp : p.wf) (hj : p[j]? = some x)
    (hk : p[k]? = some y) (h : x.base = y.base) : j = k := by
  obtain ⟨-, -, hbases⟩ := hp
  have hnodup : (p.map BlockInstance.base).Nodup := List.pairwise_map.mpr hbases
  obtain ⟨hlt, -⟩ := List.getElem?_eq_some_iff.mp hj
  exact (List.getElem?_inj (by simpa using hlt) hnodup).mp (by simp [hj, hk, h])

/-- Settles O59: a step replaces one instance's state, a post goes by each instance's own window, and aligned windows
with distinct bases are disjoint. -/
theorem instancesShareNothing : Obligations.InstancesShareNothing := by
  refine ⟨Platform.step_others, fun p addr a j x hj => ⟨fun h => ?_, fun h => ?_⟩, ?_⟩
  · simp [Platform.post, hj, h]
  · simp [Platform.post, hj, h]
  · intro p addr j k x y hp hj hk hx hy
    have ⟨_, haligned, _⟩ := hp
    have hbase : x.base = y.base := x.base_eq_of_holds y addr (haligned x (List.mem_of_getElem? hj))
      (haligned y (List.mem_of_getElem? hk)) hx hy
    exact p.index_eq_of_base_eq j k x y hp hj hk hbase

end Sys2Proof.Machine
end

section
/-! Proofs about launch, status, the keys and the register map (10_state.md R19 to R46). -/

namespace Sys2Proof.Machine

/-! ### Which accesses of the register area are accepted (R64, R65) -/

theorem readRefused_idle_word (s : State) (off : Nat) (he : s.eng = .idle) (ho : off < 256) (ha : off % 4 = 0) :
    readRefused s .word off = false := by
  simp [readRefused, Width.bytes, Config.fbufBase, ha, ho, s.busy_idle he]

theorem writeRefused_idle_word (s : State) (off : Nat) (he : s.eng = .idle) (ho : off < 256) (ha : off % 4 = 0) :
    writeRefused s .word off = false := by
  simp [writeRefused, Width.bytes, Config.fbufBase, ha, ho, s.busy_idle he]

/-- A 32-bit read of the register area of an idle block (R64). -/
theorem hostRead_idle (s : State) (off : Nat) (he : s.eng = .idle) (ho : off < 256) (ha : off % 4 = 0) :
    hostRead s .word off = .next { s.refreshIrq with rdata := some (s.regRead off) } :=
  hostRead_reg s .word off ho (readRefused_idle_word s off he ho ha)

/-- A 32-bit write to the register area of an idle block (R65). -/
theorem hostWrite_idle (s : State) (off : Nat) (v : Word) (he : s.eng = .idle) (ho : off < 256) (ha : off % 4 = 0) :
    hostWrite s .word off v = .next (s.regWrite off v).refreshIrq :=
  hostWrite_reg s .word off v ho (writeRefused_idle_word s off he ho ha)

/-- A 32-bit read of `CMD` is accepted in every state (R66). -/
theorem hostRead_cmd (s : State) : hostRead s .word 0x00C = .next { s.refreshIrq with rdata := some s.cmdLast } :=
  hostRead_reg s .word 0x00C (by decide) (by simp [readRefused, Width.bytes, Config.fbufBase, busyReadable])

/-- A 32-bit write of `STATUS` is accepted in every state (R26, R66). -/
theorem hostWrite_status (s : State) (v : Word) : hostWrite s .word 0x008 v = .next (s.ackStatus v).refreshIrq :=
  hostWrite_reg s .word 0x008 v (by decide) (by simp [writeRefused, Width.bytes, Config.fbufBase])

/-- A launch is refused while a command runs (R27). -/
theorem writeRefused_cmd_busy (s : State) (hb : s.busy = true) : writeRefused s .word 0x00C = true := by
  simp [writeRefused, Width.bytes, Config.fbufBase, hb]

/-! ### Four registers of one name -/

@[simp] theorem Quad.get_set (q : Quad) (j : Fin 4) (v : Word) : (q.set j v).get j = v := by
  fin_cases j <;> rfl

/-- Byte `4j+b` of four registers is `Xj[8b+7:8b]` (R29, R32). -/
theorem Quad.bytes_getElem? (q : Quad) (j b : Fin 4) :
    q.bytes[4 * j.val + b.val]? = some ((q.get j).extractLsb' (8 * b) 8) := by
  fin_cases j <;> fin_cases b <;> rfl

theorem Quad.bytes_eq (q : Quad) : q.bytes = le4 q.w0 ++ le4 q.w1 ++ le4 q.w2 ++ le4 q.w3 := by
  simp [Quad.bytes]

/-! ### The bits of `KCW` (R29, R31) -/

theorem State.kvc_iff (s : State) : s.kvc = true ↔ s.kcw = 15#4 := beq_iff_eq

theorem State.kvc_iff_bits (s : State) : s.kvc = true ↔ ∀ j : Fin 4, s.kcw.getLsbD j = true := by
  have all : ∀ c : BitVec 4, c = 15#4 ↔ ∀ j : Fin 4, c.getLsbD j = true := by decide
  rw [s.kvc_iff, all]

theorem State.writeKconf_kcw_bit (s : State) (i j : Fin 4) (v : Word) :
    (s.writeKconf i v).kcw.getLsbD j = (s.kcw.getLsbD j || decide (j = i)) := by
  have bit : ∀ i j : Fin 4, (1#4 <<< i.val).getLsbD j = decide (j = i) := by decide
  rw [State.writeKconf_kcw, BitVec.getLsbD_or, bit]

theorem State.regStore_kconf (s : State) (j : Fin 4) (v : Word) : s.regStore (.kconf j) v = s.writeKconf j v := rfl

/-- A bit of `KCW` after a list of `KCONF` writes: it was 1 before, or its word is in the list. -/
theorem kcw_bit_after_writes (s : State) (ws : List (Fin 4 × Word)) (j : Fin 4) :
    (ws.foldl (fun t p => t.regStore (.kconf p.1) p.2) s).kcw.getLsbD j = true ↔
      s.kcw.getLsbD j = true ∨ ∃ v, (j, v) ∈ ws := by
  induction ws generalizing s with
  | nil => simp
  | cons p ws ih =>
    obtain ⟨i, v⟩ := p
    rw [List.foldl_cons, ih, State.regStore_kconf, State.writeKconf_kcw_bit]
    simp [or_assoc, exists_or]

/-- Settles O15: bit by bit, by induction over the list of writes. -/
theorem confKeyValidAfterAllFourWords : Obligations.ConfKeyValidAfterAllFourWords := by
  intro s ws
  rw [State.kvc_iff_bits]
  exact forall_congr' fun j => kcw_bit_after_writes s ws j

/-! ### `STATUS` (R25, R26) -/

/-- Settles O13: the fields of R25's concatenation are peeled off from the low end. -/
theorem statusBitsAtTheirPlaces : Obligations.StatusBitsAtTheirPlaces := by
  intro s
  have hv : s.regRead 0x008 = s.statusWord := rfl
  rw [← s.kvc_iff, ← s.busy_eq_true_iff, hv]
  unfold State.statusWord
  simp (disch := decide) only [BitVec.getLsbD_append, Nat.reduceLT, reduceIte, Nat.reduceSub,
    BitVec.extractLsb'_append_eq_of_le, BitVec.extractLsb'_append_eq_right]
  simp

/-- Settles O57: bits 4 to 9 are `ERR`, `SENT` and `MATCH`, which are as the launch left them while a command runs. -/
theorem statusIsNeverAMixture : Obligations.StatusIsNeverAMixture := by
  intro s hinv hbusy
  obtain ⟨b0, b1, -, -, b4, b8, b9, -⟩ := statusBitsAtTheirPlaces s
  obtain ⟨w, hw⟩ := b0.mp hbusy
  obtain ⟨hdone, herr, hsent, hmatch, -⟩ := hinv.runClean w hw
  have herrBits (k : Nat) (hk : k < 4) : (s.regRead 0x008).getLsbD (4 + k) = false := by
    have h := congrArg (fun x => x.getLsbD k) b4
    simpa [BitVec.getLsbD_extractLsb', hk, herr, ErrCode.code] using h
  refine ⟨b1.trans hdone, BitVec.eq_of_getLsbD_eq fun i hi => ?_⟩
  simp only [BitVec.getLsbD_extractLsb', BitVec.getLsbD_zero, hi, decide_true, Bool.true_and]
  obtain h | rfl | rfl : i < 4 ∨ i = 4 ∨ i = 5 := by omega
  · exact herrBits i h
  · exact b8.trans hsent
  · exact b9.trans hmatch

theorem State.ackStatus_refreshIrq (s : State) (v : Word) : (s.ackStatus v).refreshIrq =
    { s with done := (if v.getLsbD 1 then false else s.done), berr := (if v.getLsbD 2 then false else s.berr),
             irq := s.irqen && (if v.getLsbD 1 then false else s.done) } := by
  unfold State.refreshIrq State.ackStatus
  cases v.getLsbD 1 <;> cases v.getLsbD 2 <;> simp

/-- Settles O12: the acknowledgement, and `irq` recomputed. -/
theorem statusWriteClearsByOne : Obligations.StatusWriteClearsByOne := by
  intro s v
  rw [hostWrite_status, State.ackStatus_refreshIrq]

/-! ### Launch (R27) and the interrupt (R145) -/

/-- A launch clears `DONE` and so drops `irq`. -/
theorem State.launch_refreshIrq (s : State) (v : Word) :
    (s.launch v).refreshIrq = { s.launch v with irq := false } := by
  simp [State.refreshIrq]

/-- Settles O11: a launch is a register write of the idle block, a refused access of the busy one. -/
theorem launchLatchesTheWord : Obligations.LaunchLatchesTheWord := by
  intro s v hlevel
  refine ⟨fun he => ?_, fun w he => ?_, ?_, rfl, completion_error v s⟩
  · rw [hostWrite_idle s 0x00C v he (by decide) (by decide)]
    exact congrArg Host.Outcome.next (s.launch_refreshIrq v)
  · rw [hostWrite_refused s .word 0x00C v (by decide) (writeRefused_cmd_busy s (s.busy_run w he))]
    exact congrArg Host.Outcome.next (s.busError.refreshIrq_of_level hlevel)
  · rw [hostRead_cmd, s.refreshIrq_of_level hlevel]

/-- Settles O26: each access writes its register, and then `irq` is recomputed. -/
theorem interruptRisesAndFalls : Obligations.InterruptRisesAndFalls := by
  intro s v he
  refine ⟨fun e => ⟨rfl, rfl⟩, ⟨_, hostWrite_idle s 0x004 v he (by decide) (by decide), rfl, rfl⟩, fun hv => ?_,
    ⟨_, hostWrite_idle s 0x00C v he (by decide) (by decide), ?_, rfl⟩⟩
  · refine ⟨_, hostWrite_status s v, ?_, ?_⟩ <;> simp [hv]
  · exact Bool.and_false _

/-! ### The step (R90, R142) -/

theorem tableWord_toNat (w : Word) : tableWord 32 w.toNat = w := by
  simp [tableWord, Nat.mod_eq_of_lt w.isLt]

/-- Settles O6: with nothing pending or the completion at the head, a step is the engine's turn, which runs the latched
word. -/
theorem stepRunsTheDecodedCommand : Obligations.StepRunsTheDecodedCommand := by
  intro s w i hd
  have turn (u : State) (hu : u.eng = .run w) : engineStep u = exec i u :=
    (engineStep_run u w hu).trans (completion_ok w u i hd)
  refine ⟨fun he hs => ?_, fun he rest hs => ?_, ?_⟩
  · unfold step
    rw [hs]
    exact turn s he
  · unfold step
    rw [hs]
    exact turn _ he
  · have hw : s.withFetchWord 32 w.toNat = { s.launch w with script := .complete :: s.script, rst := false } := by
      rw [State.withFetchWord, tableWord_toNat]
    rw [hw]
    exact turn { s.launch w with script := s.script, rst := false } rfl

/-! ### Keys (R29, R31, R32) -/

theorem regAt_kconf : ∀ j : Fin 4, regAt (0x020 + 4 * j) = some (.kconf j) := by decide

/-- The value read at, and the effect of a write to, an offset that holds a register (R42). -/
theorem State.regRead_of_some (s : State) (off : Nat) (r : Reg) (h : regAt off = some r) :
    s.regRead off = s.regValue r := by simp [State.regRead, h]

theorem State.regWrite_of_some (s : State) (off : Nat) (v : Word) (r : Reg) (h : regAt off = some r) :
    s.regWrite off v = s.regStore r v := by simp [State.regWrite, h]

/-- Settles O14: the write rule of `KCONFj` does not touch `IRQEN` or `DONE`, so `irq` stays the level. -/
theorem kconfWriteDropsDerivedKeys : Obligations.KconfWriteDropsDerivedKeys := by
  refine ⟨fun s j v he hlevel => ⟨?_, ?_, fun b => ?_⟩, rfl, rfl⟩
  · rw [hostWrite_idle s _ v he (by omega) (by omega), State.regWrite_of_some s _ v _ (regAt_kconf j)]
    exact congrArg Host.Outcome.next ((s.writeKconf j v).refreshIrq_of_level hlevel)
  · rw [State.regRead_of_some _ _ _ (regAt_kconf j)]
    exact s.kconf.get_set j v
  · show (s.kconf.set j v).bytes[4 * j.val + b.val]? = _
    rw [Quad.bytes_getElem?, Quad.get_set]

/-- Settles O16: the registers' bytes are the block's bytes. -/
theorem keySelectsRegistersAndValidBit : Obligations.KeySelectsRegistersAndValidBit :=
  fun s => ⟨s.kvc_iff, rfl, rfl, s.kconf.bytes_eq, s.kenc.bytes_eq, s.kmac.bytes_eq⟩

/-! ### The registers' access rules (R19, R21, R42) -/

/-- Settles O18: no register's write rule names `RESULT`, `MAC` or FBUF, and only that of `KCONFj` names a key. -/
theorem hostWritesLeaveEngineRegisters : Obligations.HostWritesLeaveEngineRegisters := by
  intro s r v
  cases r with
  | kconf j => exact ⟨rfl, rfl, fun _ => rfl, fun h => absurd rfl (h j)⟩
  | id | ctrl | status | cmd | result0 | result1 | kenc | kmac | hdr0 | hdr1 | ellcs | ellsn | tplacc | aflmcl | aflmctr
    | expmac | mac => exact ⟨rfl, rfl, fun _ => rfl, fun _ => ⟨rfl, rfl, rfl, rfl, rfl, rfl⟩⟩

/-- The reserved bits of a register, in the layout of its word (R23, R25, R34, R36, R37). -/
def Reg.reserved : Reg → Word
  | .ctrl => 0x3FFFFFFF#30 ++ 0#1 ++ 0#1
  | .status => 0xFFF#12 ++ 0#4 ++ 1#1 ++ 0#1 ++ 0#1 ++ 0#1 ++ 3#2 ++ 0#1 ++ 0#1 ++ 0#4 ++ 1#1 ++ 0#1 ++ 0#1 ++ 0#1
  | .ellcs => 0#16 ++ 0xFF#8 ++ 0#8
  | .tplacc => 0xFFFFFF#24 ++ 0#8
  | .aflmcl => 0xFFFFFF#24 ++ 0#8
  | _ => 0#32

/-- The registers R21 marks read-only. -/
def Reg.isReadOnly : Reg → Bool
  | .id | .result0 | .result1 | .kenc _ | .kmac _ | .mac _ => true
  | _ => false

/-- The registers that hold what was written to them: all but the read-only ones, and but `STATUS` and `CMD`, whose
writes act (R26, R27). -/
def Reg.holdsWritten : Reg → Bool
  | .id | .result0 | .result1 | .kenc _ | .kmac _ | .mac _ | .status | .cmd => false
  | _ => true

theorem reservedBits_of_some (off : Nat) (r : Reg) (h : regAt off = some r) : reservedBits off = r.reserved := by
  unfold regAt at h
  split at h <;> cases h <;> rfl

theorem regAt_status (off : Nat) (h : regAt off = some .status) : off = 0x008 := by
  unfold regAt at h
  split at h <;> cases h
  rfl

section
variable (s : State) (v : Word)

theorem Reg.regStore_readOnly (r : Reg) (h : r.isReadOnly = true) : s.regStore r v = s := by
  cases r with
  | id | result0 | result1 | kenc | kmac | mac => rfl
  | ctrl | status | cmd | kconf | hdr0 | hdr1 | ellcs | ellsn | tplacc | aflmcl | aflmctr | expmac => cases h

theorem Reg.regStore_berr (r : Reg) (h : r ≠ .status) : (s.regStore r v).berr = s.berr := by
  cases r with
  | status => exact absurd rfl h
  | id | ctrl | cmd | result0 | result1 | kconf | kenc | kmac | hdr0 | hdr1 | ellcs | ellsn | tplacc | aflmcl | aflmctr
    | expmac | mac => rfl

/-- Concatenations have no bit in common when no two parts at the same place have. -/
theorem append_and_append_eq_zero {n m : Nat} {x x' : BitVec n} {y y' : BitVec m} (hx : x &&& x' = 0#n)
    (hy : y &&& y' = 0#m) : (x ++ y) &&& (x' ++ y') = 0#(n + m) := by
  rw [BitVec.and_append, hx, hy, BitVec.zero_append_zero]

/-- A reserved bit reads 0: where the mask has ones, the register's word has a field of zeros. -/
theorem Reg.regValue_reserved (r : Reg) : s.regValue r &&& r.reserved = 0#32 := by
  cases r with
  | ctrl | status | ellcs | tplacc | aflmcl =>
    repeat' refine append_and_append_eq_zero ?_ ?_
    all_goals simp
  | id | cmd | result0 | result1 | kconf | kenc | kmac | hdr0 | hdr1 | ellsn | aflmctr | expmac | mac =>
    exact BitVec.and_zero

theorem Reg.and_not_reserved (r : Reg) (h : r.reserved = 0#32) : v &&& ~~~r.reserved = v := by
  rw [h]
  exact BitVec.and_allOnes

/-- A field under ones of a mask is not changed by it. -/
theorem extractLsb'_and_of_ones (m : Word) (lo n : Nat) (h : m.extractLsb' lo n = BitVec.allOnes n) :
    (v &&& m).extractLsb' lo n = v.extractLsb' lo n := by
  rw [BitVec.extractLsb'_and, h, BitVec.and_allOnes]

theorem getLsbD_and_of_one (m : Word) (i : Nat) (h : m.getLsbD i = true) : (v &&& m).getLsbD i = v.getLsbD i := by
  rw [BitVec.getLsbD_and, h, Bool.and_true]

/-- A write acts as if the reserved bits were 0. -/
theorem Reg.regStore_reserved (r : Reg) : s.regStore r v = s.regStore r (v &&& ~~~r.reserved) := by
  cases r with
  | ctrl =>
    simp only [State.regStore]
    rw [getLsbD_and_of_one v _ 0 rfl, getLsbD_and_of_one v _ 1 rfl]
  | status =>
    simp only [State.regStore, State.ackStatus]
    rw [getLsbD_and_of_one v _ 1 rfl, getLsbD_and_of_one v _ 2 rfl]
  | ellcs =>
    simp only [State.regStore]
    rw [extractLsb'_and_of_ones v _ 0 8 rfl, extractLsb'_and_of_ones v _ 16 16 rfl]
  | tplacc | aflmcl =>
    simp only [State.regStore]
    rw [extractLsb'_and_of_ones v _ 0 8 rfl]
  | id | cmd | result0 | result1 | kconf | kenc | kmac | hdr0 | hdr1 | ellsn | aflmctr | expmac | mac =>
    rw [Reg.and_not_reserved _ _ rfl]

/-- What `CTRL` reads as after a write of v (R23). -/
theorem ctrl_fields (v : Word) :
    0#30 ++ BitVec.ofBool (v.getLsbD 1) ++ BitVec.ofBool (v.getLsbD 0) = v &&& ~~~Reg.ctrl.reserved := by
  refine BitVec.eq_of_getLsbD_eq fun i hi => ?_
  simp only [BitVec.getLsbD_append, BitVec.getLsbD_and, Reg.reserved]
  interval_cases i <;> simp

/-- What `ELLCS` reads as after a write of v (R34). -/
theorem ellcs_fields (v : Word) :
    v.extractLsb' 16 16 ++ 0#8 ++ v.extractLsb' 0 8 = v &&& ~~~Reg.ellcs.reserved := by
  refine BitVec.eq_of_getLsbD_eq fun i hi => ?_
  simp only [BitVec.getLsbD_append, BitVec.getLsbD_and, BitVec.getLsbD_extractLsb', Reg.reserved]
  interval_cases i <;> simp

/-- What `TPLACC` and `AFLMCL` read as after a write of v (R36, R37). -/
theorem low_byte_field (v : Word) : 0#24 ++ v.extractLsb' 0 8 = v &&& ~~~Reg.tplacc.reserved := by
  refine BitVec.eq_of_getLsbD_eq fun i hi => ?_
  have mask : ∀ i < 32, (~~~Reg.tplacc.reserved).getLsbD i = decide (i < 8) := by decide
  rw [BitVec.getLsbD_and, mask i hi, BitVec.getLsbD_append]
  split <;> simp [*]

/-- Every other bit reads back as written (R169). -/
theorem Reg.regValue_regStore (r : Reg) (h : r.holdsWritten = true) :
    (s.regStore r v).regValue r = v &&& ~~~r.reserved := by
  cases r with
  | ctrl => exact ctrl_fields v
  | ellcs => exact ellcs_fields v
  | tplacc | aflmcl => exact low_byte_field v
  | kconf | expmac =>
    rw [Reg.and_not_reserved _ _ rfl]
    exact Quad.get_set _ _ _
  | hdr0 | hdr1 | ellsn | aflmctr =>
    rw [Reg.and_not_reserved _ _ rfl]
    rfl
  | id | result0 | result1 | kenc | kmac | mac | status | cmd => cases h

end

/-- Settles O17: by the register at the offset, if any. -/
theorem reservedReadsZeroAndIgnoresWrites : Obligations.ReservedReadsZeroAndIgnoresWrites := by
  intro s off v ho ha he hlevel
  refine ⟨?_, hostWrite_idle s off v he ho ha, ?_⟩
  · rw [hostRead_idle s off he ho ha, s.refreshIrq_of_level hlevel]
  have hro : ∀ o ∈ [0x000, 0x010, 0x014, 0x030, 0x034, 0x038, 0x03C, 0x040, 0x044, 0x048, 0x04C, 0x080, 0x084, 0x088,
      0x08C], (regAt o).any Reg.isReadOnly = true := by decide
  have hrw : ∀ o ∈ [0x004, 0x020, 0x024, 0x028, 0x02C, 0x050, 0x054, 0x058, 0x05C, 0x060, 0x064, 0x068, 0x070, 0x074,
      0x078, 0x07C], (regAt o).any Reg.holdsWritten = true := by decide
  cases hr : regAt off with
  | none =>
    have hread : ∀ u : State, u.regRead off = 0#32 := fun u => by simp [State.regRead, hr]
    have hwrite : ∀ x, s.regWrite off x = s := fun x => by simp [State.regWrite, hr]
    rw [hread, hwrite, hwrite]
    refine ⟨fun _ => rfl, BitVec.zero_and, rfl, fun _ => ⟨rfl, rfl⟩, fun _ => rfl, fun h => ?_⟩
    simpa [hr] using hrw off h
  | some r =>
    have hne : off ≠ 0x008 → r ≠ .status := fun h hs => h (regAt_status off (hs ▸ hr))
    simp only [State.regRead_of_some _ off r hr, State.regWrite_of_some _ off _ r hr, reservedBits_of_some off r hr]
    refine ⟨fun h => r.regStore_berr s v (hne h), r.regValue_reserved s, r.regStore_reserved s v, nofun, fun h => ?_,
      fun h => ?_⟩
    · exact r.regStore_readOnly s v (by simpa [hr] using hro off h)
    · exact r.regValue_regStore s v (by simpa [hr] using hrw off h)

end Sys2Proof.Machine
end

section
/-! Proofs about the completion of a command: what each one may write (10_state.md R19, R28, R30, R40, R45), that `irq`
is the level (R46), and that every step keeps the invariant. -/

namespace Sys2Proof.Machine

/-! ### What a command may write -/

/-- `Effect s i u e`: the command i, completing at s, has put the block into u and is about to end with the code e
(R142). One case per set of fields that some command writes besides the completion's own. -/
inductive Effect (s : State) : Instr → State → ErrCode → Prop where
  /-- Only `STATUS`: a failed pre-check (R139), `NOP`, a bad digit. -/
  | nothing (i : Instr) (e : ErrCode) : Effect s i s e
  | result (i : Instr) (r : BitVec 64) (hi : (∃ off len, i = .crc16 off len) ∨ ∃ off wid, i = .bcd off wid) :
      Effect s i { s with result := r } .ok
  | ctr (k : KeySel) (off len : Nat) (S : Bytes) :
      Effect s (.ctr k off len) { s with fbuf := s.fbuf.writeSpan off S } .ok
  | cbc (i : Instr) (off : Nat) (S : Bytes) (b : Bool) (e : ErrCode)
      (hi : (∃ k off len, i = .cbciv k off len) ∨ ∃ k off n, i = .cbcz k off n) (hb : b = true → e = .ok) :
      Effect s i { s with fbuf := s.fbuf.writeSpan off S, sent := b } e
  | cmac (k : KeySel) (off len : Nat) (p : Bool) (q : Quad) (hp : precheck s (.cmac k off len p) = none) :
      Effect s (.cmac k off len p) { s with mac := q } .ok
  | cmacv (k : KeySel) (off len m : Nat) (p : Bool) (q : Quad) (b : Bool) (e : ErrCode)
      (hp : precheck s (.cmacv k off len m p) = none) (hb : b = true → e = .ok) :
      Effect s (.cmacv k off len m p) { s with mac := q, matched := b } e
  | kdfEnc (hk : s.kvc = true) : Effect s (.kdf .kenc) { s with kenc := s.derived .kenc, kve := true } .ok
  | kdfMac (hk : s.kvc = true) : Effect s (.kdf .kmac) { s with kmac := s.derived .kmac, kvm := true } .ok
  | kclr : Effect s (.kclr false) s.dropDerivedKeys .ok
  | kclrAll : Effect s (.kclr true) { s.dropDerivedKeys with kconf := .zero, kcw := 0b0000#4 } .ok

/-- The end of a CBC decryption writes `SENT` and finishes; `SENT` is 1 only with `OK` (R120). -/
theorem cbcFinish_eq_finish (s : State) (off n : Nat) :
    ∃ b e, (b = true → e = .ok) ∧ cbcFinish s off n = { s with sent := b }.finish e := by
  unfold cbcFinish
  split
  · exact ⟨false, .ok, fun _ => rfl, rfl⟩
  · split
    · exact ⟨true, .ok, fun _ => rfl, rfl⟩
    · exact ⟨false, .wrongkey, nofun, rfl⟩

/-- The end of a verification writes `MATCH` and finishes; `MATCH` is 1 only with `OK` (R130). -/
theorem cmacvFinish_eq_finish (s : State) (m : Nat) :
    ∃ b e, (b = true → e = .ok) ∧ cmacvFinish s m = { s with matched := b }.finish e := by
  unfold cmacvFinish
  split
  · exact ⟨true, .ok, fun _ => rfl, rfl⟩
  · exact ⟨false, .badmac, nofun, rfl⟩

/-- A command that answers a next state had one of the effects above, and then finished. -/
theorem exec_next_effect (i : Instr) (s t : State) (h : exec i s = .next t) :
    ∃ u e, Effect s i u e ∧ t = u.finish e := by
  cases i with
  | nop => cases h; exact ⟨_, _, .nothing _ _, rfl⟩
  | crc16 off len =>
    obtain ⟨e, -, rfl⟩ | ⟨-, S, -, -, rfl⟩ := exec_crc16_next s t _ _ h
    · exact ⟨_, _, .nothing _ _, rfl⟩
    · exact ⟨_, _, .result _ _ (.inl ⟨_, _, rfl⟩), rfl⟩
  | bcd off wid =>
    obtain ⟨e, -, rfl⟩ | ⟨-, S, -, -, ⟨r, -, rfl⟩ | ⟨-, rfl⟩⟩ := exec_bcd_next s t _ _ h
    · exact ⟨_, _, .nothing _ _, rfl⟩
    · exact ⟨_, _, .result _ _ (.inr ⟨_, _, rfl⟩), rfl⟩
    · exact ⟨_, _, .nothing _ _, rfl⟩
  | ctr k off len =>
    obtain ⟨e, -, rfl⟩ | ⟨-, S, -, -, rfl⟩ := exec_ctr_next s t _ _ _ h
    · exact ⟨_, _, .nothing _ _, rfl⟩
    · exact ⟨_, _, .ctr _ _ _ _, rfl⟩
  | cbciv k off len =>
    obtain ⟨e, -, rfl⟩ | ⟨-, S, -, -, ht⟩ := exec_cbciv_next s t _ _ _ h
    · exact ⟨_, _, .nothing _ _, rfl⟩
    · obtain ⟨b, e, hb, hf⟩ := cbcFinish_eq_finish _ _ _
      exact ⟨_, _, .cbc _ _ _ b e (.inl ⟨_, _, _, rfl⟩) hb, ht.trans hf⟩
  | cbcz k off n =>
    obtain ⟨e, -, rfl⟩ | ⟨-, S, -, -, ht⟩ := exec_cbcz_next s t _ _ _ h
    · exact ⟨_, _, .nothing _ _, rfl⟩
    · obtain ⟨b, e, hb, hf⟩ := cbcFinish_eq_finish _ _ _
      exact ⟨_, _, .cbc _ _ _ b e (.inr ⟨_, _, _, rfl⟩) hb, ht.trans hf⟩
  | cmac k off len p =>
    obtain ⟨e, -, rfl⟩ | ⟨hp, S, -, -, rfl⟩ := exec_cmac_next s t _ _ _ _ h
    · exact ⟨_, _, .nothing _ _, rfl⟩
    · exact ⟨_, _, .cmac _ _ _ _ _ hp, rfl⟩
  | cmacv k off len m p =>
    obtain ⟨e, -, rfl⟩ | ⟨hp, S, -, -, ht⟩ := exec_cmacv_next s t _ _ _ _ _ h
    · exact ⟨_, _, .nothing _ _, rfl⟩
    · obtain ⟨b, e, hb, hf⟩ := cmacvFinish_eq_finish _ _
      exact ⟨_, _, .cmacv _ _ _ _ _ _ b e hp hb, ht.trans hf⟩
  | kdf dc =>
    obtain ⟨e, -, rfl⟩ | ⟨-, hk, ⟨rfl, rfl⟩ | ⟨rfl, rfl⟩⟩ := exec_kdf_next s t _ h
    · exact ⟨_, _, .nothing _ _, rfl⟩
    · exact ⟨_, _, .kdfEnc hk, rfl⟩
    · exact ⟨_, _, .kdfMac hk, rfl⟩
  | kclr all =>
    cases all <;> cases h
    · exact ⟨_, _, .kclr, rfl⟩
    · exact ⟨_, _, .kclrAll, rfl⟩

/-- Every completion ends with `finish`, whether the word decodes or not (R142). -/
theorem completion_next_effect (w : Word) (s t : State) (h : completion w s = .next t) :
    ∃ i u e, Effect s i u e ∧ t = u.finish e := by
  cases hd : decode w with
  | ok i => exact ⟨i, exec_next_effect i s t (completion_ok w s i hd ▸ h)⟩
  | error d =>
    rw [completion_error w s d hd] at h
    cases h
    exact ⟨.nop, _, _, .nothing _ _, rfl⟩

/-! ### What a command leaves unchanged -/

/-- Settles O39: no effect reaches these fields, and the completion writes none of them. -/
theorem commandsKeepHostRegisters : Obligations.CommandsKeepHostRegisters := by
  intro i s t h
  obtain ⟨u, e, he, rfl⟩ := exec_next_effect i s t h
  cases he <;> simp [HostRegsKept, OutsideKept]

/-- Settles O40: of all effects only those of `KDF` and `KCLR` reach a key. -/
theorem onlyKdfAndKclrWriteKeys : Obligations.OnlyKdfAndKclrWriteKeys := by
  intro i s t h
  obtain ⟨u, e, he, rfl⟩ := exec_next_effect i s t h
  cases he <;> simp [KeysKept]

/-- Settles O41: `RESULT` is written by the effect of `CRC16` and `BCD` alone, which goes with `OK`; `MAC` by those of
`CMAC` and `CMACV`, which follow the pre-checks. -/
theorem onlyTheirCommandsWriteResultAndMac : Obligations.OnlyTheirCommandsWriteResultAndMac := by
  intro i s t h
  obtain ⟨u, e, he, rfl⟩ := exec_next_effect i s t h
  cases he with
  | result _ r hi => exact ⟨.inr ⟨rfl, hi⟩, .inl rfl⟩
  | cmac k off len p q hp => exact ⟨.inl rfl, .inr ⟨hp, .inl ⟨k, off, len, p, rfl⟩⟩⟩
  | cmacv k off len m p q b _ hp => exact ⟨.inl rfl, .inr ⟨hp, .inr ⟨k, off, len, m, p, rfl⟩⟩⟩
  | nothing | ctr | cbc | kdfEnc | kdfMac | kclr | kclrAll => exact ⟨.inl rfl, .inl rfl⟩

/-- Settles O42: `SENT` is written by the effect of the two CBC commands alone, `MATCH` by that of `CMACV`. -/
theorem sentAndMatchFrame : Obligations.SentAndMatchFrame := by
  intro i s t h
  obtain ⟨u, e, he, rfl⟩ := exec_next_effect i s t h
  cases he with
  | cbc _ off S b _ hi => exact ⟨.inr hi, .inl rfl⟩
  | cmacv k off len m p => exact ⟨.inl rfl, .inr ⟨k, off, len, m, p, rfl⟩⟩
  | nothing | result | ctr | cmac | kdfEnc | kdfMac | kclr | kclrAll => exact ⟨.inl rfl, .inl rfl⟩

/-! ### The level `irq` (R46) -/

theorem hostRead_irqLevel (s t : State) (wd : Width) (off : Nat) (h : hostRead s wd off = .next t) : t.irqLevel := by
  obtain ⟨-, v, ⟨-, rfl⟩ | ⟨-, -, rfl⟩⟩ := hostRead_next s t wd off h <;> rfl

theorem hostWrite_irqLevel (s t : State) (wd : Width) (off : Nat) (v : Word) (h : hostWrite s wd off v = .next t) :
    t.irqLevel := by
  obtain ⟨-, ⟨-, rfl⟩ | ⟨-, -, rfl⟩ | ⟨-, -, rfl⟩⟩ := hostWrite_next s t wd off v h <;> rfl

theorem hostCheck_irqLevel (s t : State) (off : Nat) (mask v : Word) (h : hostCheck s off mask v = .next t) :
    t.irqLevel := by
  obtain ⟨d, ht⟩ := hostCheck_next s t off mask v h
  rw [ht]
  rfl

theorem State.finish_irqLevel (s : State) (e : ErrCode) : (s.finish e).irqLevel := (Bool.and_true _).symm

theorem completion_irqLevel (w : Word) (s t : State) (h : completion w s = .next t) : t.irqLevel := by
  obtain ⟨i, u, e, -, rfl⟩ := completion_next_effect w s t h
  exact u.finish_irqLevel e

theorem step_irqLevel (s t : State) (h : step s = .next t) (hs : s.irqLevel) : t.irqLevel := by
  obtain ⟨s', rest, rfl, hcase⟩ := step_next s t h
  obtain ⟨-, rfl⟩ | ⟨w, -, h⟩ | ⟨-, wd, off, h⟩ | ⟨-, wd, off, v, h⟩ | ⟨-, off, mask, v, h⟩ | rfl | rfl := hcase
  · exact hs
  · exact completion_irqLevel w _ t h
  · exact hostRead_irqLevel _ t wd off h
  · exact hostWrite_irqLevel _ t wd off v h
  · exact hostCheck_irqLevel _ t off mask v h
  · rfl
  · unfold State.leaveReset
    split
    · rfl
    · exact hs

/-- Settles O56: each access recomputes the level, each completion sets it as it sets `DONE`, and resets clear both. -/
theorem irqIsTheLevel : Obligations.IrqIsTheLevel := by
  refine ⟨fun s t h => ?_, step_irqLevel⟩
  obtain ⟨wd, off, h⟩ | ⟨wd, off, v, h⟩ | ⟨off, mask, v, h⟩ | ⟨w, h⟩ := h
  · exact hostRead_irqLevel s t wd off h
  · exact hostWrite_irqLevel s t wd off v h
  · exact hostCheck_irqLevel s t off mask v h
  · exact completion_irqLevel w s t h

/-! ### Each effect and the parts of the invariant -/

section
variable {s u : State} {i : Instr} {e : ErrCode}

theorem Effect.fbuf_wf (h : Effect s i u e) (hs : s.fbuf.wf) : u.fbuf.wf := by
  cases h with
  | ctr | cbc => exact Memory.writeSpan_wf _ _ _ hs
  | nothing | result | cmac | cmacv | kdfEnc | kdfMac | kclr | kclrAll => exact hs

theorem Effect.invalidZero (h : Effect s i u e) (hs : s.invalidZero) : u.invalidZero := by
  obtain ⟨henc, hmac⟩ := hs
  cases h with
  | kdfEnc => exact ⟨nofun, hmac⟩
  | kdfMac => exact ⟨henc, nofun⟩
  | kclr | kclrAll => exact ⟨fun _ => rfl, fun _ => rfl⟩
  | nothing | result | ctr | cbc | cmac | cmacv => exact ⟨henc, hmac⟩

/-- `KDF` derives from the `KCONF` that stands, and what changes `KCONF` drops what was derived. -/
theorem Effect.derivedCurrent (h : Effect s i u e) (hs : s.derivedCurrent) : u.derivedCurrent := by
  obtain ⟨henc, hmac⟩ := hs
  cases h with
  | kdfEnc hk => exact ⟨fun _ => ⟨hk, s.mctr, _, rfl, rfl⟩, hmac⟩
  | kdfMac hk => exact ⟨henc, fun _ => ⟨hk, s.mctr, _, rfl, rfl⟩⟩
  | kclr | kclrAll => exact ⟨nofun, nofun⟩
  | nothing | result | ctr | cbc | cmac | cmacv => exact ⟨henc, hmac⟩

/-- From the flags a launch leaves (R45), an effect sets one of `SENT` and `MATCH` at most, and only with `OK`. -/
theorem Effect.flagsAgree (h : Effect s i u e) (hsent : s.sent = false) (hmatch : s.matched = false) :
    (u.finish e).flagsAgree := by
  cases h with
  | cbc _ off S b _ hi hb => simpa [State.flagsAgree, hmatch] using hb
  | cmacv k off len m p q b _ hp hb => simpa [State.flagsAgree, hsent] using hb
  | nothing | result | ctr | cmac | kdfEnc | kdfMac | kclr | kclrAll => simp [State.flagsAgree, hsent, hmatch]

theorem Effect.finish_inv (h : Effect s i u e) (hs : s.Inv) (hsent : s.sent = false) (hmatch : s.matched = false) :
    (u.finish e).Inv where
  canonical := h.fbuf_wf hs.canonical
  irqLevel := u.finish_irqLevel e
  runClean := nofun
  invalidZero := h.invalidZero hs.invalidZero
  derivedCurrent := h.derivedCurrent hs.derivedCurrent
  flagsAgree := h.flagsAgree hsent hmatch
  resetIdle := fun _ => rfl

end

/-! ### Each kind of step keeps the invariant -/

section
variable {s t : State}

/-- The invariant does not depend on `BERR`, the data last read, or the inputs still to come, and holds for no `irq` but
the level. -/
theorem State.Inv.withView (h : s.Inv) (q b p : Bool) (l : List Event) (d : Option Word)
    (hq : q = (s.irqen && s.done)) :
    { s with irq := q, berr := b, script := l, rdata := d, stopped := p }.Inv where
  canonical := h.canonical
  irqLevel := hq
  runClean := h.runClean
  invalidZero := h.invalidZero
  derivedCurrent := h.derivedCurrent
  flagsAgree := h.flagsAgree
  resetIdle := h.resetIdle

theorem completion_inv (w v : Word) (hs : s.Inv) (hrun : s.eng = .run w) (h : completion v s = .next t) : t.Inv := by
  obtain ⟨i, u, e, he, rfl⟩ := completion_next_effect v s t h
  obtain ⟨-, -, hsent, hmatch, -⟩ := hs.runClean w hrun
  exact he.finish_inv hs hsent hmatch

theorem hostRead_inv (wd : Width) (off : Nat) (hs : s.Inv) (h : hostRead s wd off = .next t) : t.Inv := by
  obtain ⟨-, v, ⟨-, rfl⟩ | ⟨-, -, rfl⟩⟩ := hostRead_next s t wd off h <;> exact hs.withView _ _ _ _ _ rfl

theorem hostCheck_inv (off : Nat) (mask v : Word) (hs : s.Inv) (h : hostCheck s off mask v = .next t) : t.Inv := by
  obtain ⟨d, ht⟩ := hostCheck_next s t off mask v h
  rw [ht]
  exact hs.withView _ _ _ _ _ rfl

/-- An acknowledgement changes `DONE` and `BERR` only, and `DONE` only to 0 (R26). -/
theorem State.Inv.ackStatus (h : s.Inv) (v : Word) : (s.ackStatus v).refreshIrq.Inv where
  canonical := h.canonical
  irqLevel := rfl
  runClean := fun w hw => by
    obtain ⟨hdone, hflags⟩ := h.runClean w hw
    exact ⟨by simp [hdone], hflags⟩
  invalidZero := h.invalidZero
  derivedCurrent := h.derivedCurrent
  flagsAgree := h.flagsAgree
  resetIdle := h.resetIdle

/-- A launch leaves the flags as a running command has them (R27, R45); none happens under reset. -/
theorem State.Inv.launch (h : s.Inv) (hrst : s.rst = false) (v : Word) : (s.launch v).refreshIrq.Inv where
  canonical := h.canonical
  irqLevel := rfl
  runClean := fun w hw => by
    cases hw
    exact ⟨rfl, rfl, rfl, rfl, rfl⟩
  invalidZero := h.invalidZero
  derivedCurrent := h.derivedCurrent
  flagsAgree := by simp [State.flagsAgree]
  resetIdle := fun hr => by simp [hrst] at hr

/-- A write of a `KCONF` word leaves no derived key (R29). -/
theorem State.Inv.writeKconf (h : s.Inv) (j : Fin 4) (v : Word) : (s.writeKconf j v).refreshIrq.Inv where
  canonical := h.canonical
  irqLevel := rfl
  runClean := h.runClean
  invalidZero := ⟨fun _ => rfl, fun _ => rfl⟩
  derivedCurrent := ⟨nofun, nofun⟩
  flagsAgree := h.flagsAgree
  resetIdle := h.resetIdle

theorem State.Inv.regStore (h : s.Inv) (hrst : s.rst = false) (r : Reg) (v : Word) :
    (s.regStore r v).refreshIrq.Inv := by
  cases r with
  | status => exact h.ackStatus v
  | cmd => exact h.launch hrst v
  | kconf j => exact h.writeKconf j v
  | ctrl | id | result0 | result1 | kenc | kmac | hdr0 | hdr1 | ellcs | ellsn | tplacc | aflmcl | aflmctr | expmac
    | mac =>
    exact ⟨h.canonical, rfl, h.runClean, h.invalidZero, h.derivedCurrent, h.flagsAgree, h.resetIdle⟩

theorem State.Inv.regWrite (h : s.Inv) (hrst : s.rst = false) (off : Nat) (v : Word) :
    (s.regWrite off v).refreshIrq.Inv := by
  unfold State.regWrite
  cases regAt off with
  | none => exact h.withView _ _ _ _ _ rfl
  | some r => exact h.regStore hrst r v

theorem hostWrite_inv (wd : Width) (off : Nat) (v : Word) (hs : s.Inv) (hrst : s.rst = false)
    (h : hostWrite s wd off v = .next t) : t.Inv := by
  obtain ⟨-, ⟨-, rfl⟩ | ⟨-, -, rfl⟩ | ⟨-, -, rfl⟩⟩ := hostWrite_next s t wd off v h
  · exact hs.withView _ _ _ _ _ rfl
  · exact hs.regWrite hrst off v
  · exact ⟨Memory.writeSpan_wf _ _ _ hs.canonical, rfl, hs.runClean, hs.invalidZero, hs.derivedCurrent, hs.flagsAgree,
      hs.resetIdle⟩

/-- Reset values meet the invariant, whatever is outside the block (R156). -/
theorem State.reset_inv (l : List Event) (p r : Bool) :
    { State.reset with script := l, stopped := p, rst := r }.Inv where
  canonical := by simp [State.reset, Memory.wf]
  irqLevel := rfl
  runClean := nofun
  invalidZero := ⟨fun _ => rfl, fun _ => rfl⟩
  derivedCurrent := ⟨nofun, nofun⟩
  flagsAgree := by simp [State.flagsAgree, State.reset]
  resetIdle := fun _ => rfl

theorem State.Inv.leaveReset (h : s.Inv) : s.leaveReset.Inv := by
  unfold State.leaveReset
  split
  · exact State.reset_inv s.script s.stopped false
  · exact h

end

/-- Settles O55: by the kinds of step; the completion's case is by the effect of the command that ran. -/
theorem invariantKeptByEveryStep : Obligations.InvariantKeptByEveryStep := by
  intro s t hinv h
  obtain ⟨s', rest, rfl, hcase⟩ := step_next s t h
  have hs : { s with script := rest }.Inv := hinv.withView _ _ _ _ _ hinv.irqLevel
  obtain ⟨-, rfl⟩ | ⟨w, hw, h⟩ | ⟨-, wd, off, h⟩ | ⟨hrst, wd, off, v, h⟩ | ⟨-, off, mask, v, h⟩ | rfl | rfl := hcase
  · exact hs
  · exact completion_inv w w hs hw h
  · exact hostRead_inv wd off hs h
  · exact hostWrite_inv wd off v hs hrst h
  · exact hostCheck_inv off mask v hs h
  · exact State.reset_inv rest s.stopped true
  · exact hs.leaveReset

end Sys2Proof.Machine
end

section
/-! Proofs about FBUF and the host's accesses (20_memory.md): which accesses are accepted, what each one does, the busy
lockout; and how a completion ends and what the commands leave of FBUF. -/

namespace Sys2Proof.Machine

/-! ### Which accesses are refused (R64, R65) -/

theorem busyReadable_iff (off : Nat) : busyReadable off = true ↔ off ∈ [0x000, 0x008, 0x00C] := by
  simp [busyReadable, or_assoc]

section
variable (s : State) (wd : Width) (off : Nat)

/-- While the block is idle a read is refused exactly for its alignment, or for its width in the register area. -/
theorem readRefused_idle_iff (he : s.eng = .idle) :
    readRefused s wd off = true ↔ off % wd.bytes ≠ 0 ∨ (off < 256 ∧ wd ≠ .word) := by
  by_cases ha : off % wd.bytes = 0 <;> by_cases ho : off < 256 <;>
    simp [readRefused, Config.fbufBase, s.busy_idle he, ha, ho]

/-- While the block is idle, writes are refused where reads are. -/
theorem writeRefused_idle (he : s.eng = .idle) : writeRefused s wd off = readRefused s wd off := by
  simp [writeRefused, readRefused, s.busy_idle he]

/-- While the block is idle, FBUF accepts every aligned read (R57). -/
theorem readRefused_idle_fbuf (he : s.eng = .idle) (ho : 256 ≤ off) (ha : off % wd.bytes = 0) :
    readRefused s wd off = false := by
  refine Bool.eq_false_iff.mpr fun h => ?_
  obtain h | ⟨h, -⟩ := (readRefused_idle_iff s wd off he).mp h
  · exact h ha
  · omega

/-- While the block is idle, FBUF accepts every aligned write (R57). -/
theorem writeRefused_idle_fbuf (he : s.eng = .idle) (ho : 256 ≤ off) (ha : off % wd.bytes = 0) :
    writeRefused s wd off = false :=
  (writeRefused_idle s wd off he).trans (readRefused_idle_fbuf s wd off he ho ha)

/-- While a command runs, the reads that are not refused are the 32-bit ones of `ID`, `STATUS` and `CMD` (R66). -/
theorem readRefused_busy_iff (hb : s.busy = true) :
    readRefused s wd off = false ↔ wd = .word ∧ off ∈ [0x000, 0x008, 0x00C] := by
  rw [← busyReadable_iff]
  constructor
  · intro h
    have ho : off < 256 := readRefused_busy s wd off hb h
    obtain ⟨-, hw, hr⟩ : off % wd.bytes = 0 ∧ wd = .word ∧ busyReadable off = true := by
      simpa [readRefused, Config.fbufBase, hb, ho] using h
    exact ⟨hw, hr⟩
  · rintro ⟨rfl, hr⟩
    have hall : ∀ o ∈ [0x000, 0x008, 0x00C], o % Width.word.bytes = 0 ∧ o < 256 := by decide
    obtain ⟨ha, hlt⟩ := hall off ((busyReadable_iff off).mp hr)
    simp [readRefused, Config.fbufBase, ha, hlt, hr]

/-- While a command runs, every write but the 32-bit one of `STATUS` is refused (R66). -/
theorem writeRefused_busy_of_ne_status (hb : s.busy = true) (h : ¬ (wd = .word ∧ off = 0x008)) :
    writeRefused s wd off = true :=
  Bool.eq_true_of_not_eq_false fun hr => h (writeRefused_busy s wd off hb hr)

/-! ### The accesses where `irq` is the level already (R46) -/

theorem hostRead_refused_level (hl : s.irqLevel) (ho : off < 512) (h : readRefused s wd off = true) :
    hostRead s wd off = .next { s with berr := true, rdata := some 0#32 } := by
  rw [hostRead_refused s wd off ho h, s.busError.refreshIrq_of_level hl]
  rfl

theorem hostWrite_refused_level (v : Word) (hl : s.irqLevel) (ho : off < 512) (h : writeRefused s wd off = true) :
    hostWrite s wd off v = .next { s with berr := true } := by
  rw [hostWrite_refused s wd off v ho h, s.busError.refreshIrq_of_level hl]
  rfl

end

/-- Settles O22: a refused access is a bus error, and recomputing the level changes nothing. -/
theorem busErrorOnlySetsBerr : Obligations.BusErrorOnlySetsBerr := by
  intro s wd off hl ho
  exact ⟨hostRead_refused_level s wd off hl ho, fun h v => hostWrite_refused_level s wd off v hl ho h⟩

/-- Settles O24: by the two ways a read can answer. -/
theorem readsHaveNoSideEffect : Obligations.ReadsHaveNoSideEffect := by
  intro s t wd off hl h
  obtain ⟨-, v, ⟨hr, rfl⟩ | ⟨hr, hv, rfl⟩⟩ := hostRead_next s t wd off h
  · exact ⟨v, .inl ⟨by rw [s.refreshIrq_of_level hl], hr⟩⟩
  · exact ⟨v, .inr ⟨by rw [s.busError.refreshIrq_of_level hl]; rfl, hr, hv⟩⟩

/-- Settles O19: an access is a bus error exactly where R64 and R65 refuse it; else it is the register's or FBUF's. -/
theorem widthsAndAlignment : Obligations.WidthsAndAlignment := by
  intro s wd off v he hl ho
  have refused (h : off % wd.bytes ≠ 0 ∨ (off < 256 ∧ wd ≠ .word)) :
      hostRead s wd off = .next { s with berr := true, rdata := some 0#32 } ∧
        hostWrite s wd off v = .next { s with berr := true } := by
    have hr := (readRefused_idle_iff s wd off he).mpr h
    exact ⟨hostRead_refused_level s wd off hl ho hr,
      hostWrite_refused_level s wd off v hl ho ((writeRefused_idle s wd off he).trans hr)⟩
  refine ⟨fun hreg h => refused ?_, ?_, fun hf ha => ⟨?_, fun S hS hh => ?_⟩, fun _ ha => refused (.inl ha)⟩
  · by_cases hw : wd = .word
    · subst hw
      exact .inl (h.resolve_left (not_not_intro rfl))
    · exact .inr ⟨hreg, hw⟩
  · rintro hreg rfl ha
    exact ⟨by rw [hostRead_idle s off he hreg ha, s.refreshIrq_of_level hl], hostWrite_idle s off v he hreg ha⟩
  · exact ⟨_, hostWrite_fbuf s wd off v hf ho (writeRefused_idle_fbuf s wd off he hf ha), rfl⟩
  · rw [hostRead_fbuf s wd off S hf ho (readRefused_idle_fbuf s wd off he hf ha) hS hh, s.refreshIrq_of_level hl]

/-- Settles O23: the accepted accesses are those of R66, and every other one is a bus error. -/
theorem busyLockout : Obligations.BusyLockout := by
  intro s w wd off v he hl ho
  have hb : s.busy = true := s.busy_run w he
  refine ⟨fun hw hm => ?_, fun h => ?_, ?_, fun h => ?_⟩
  · have hr := (readRefused_busy_iff s wd off hb).mpr ⟨hw, hm⟩
    rw [hostRead_reg s wd off (readRefused_busy s wd off hb hr) hr, s.refreshIrq_of_level hl]
  · exact hostRead_refused_level s wd off hl ho
      (Bool.eq_true_of_not_eq_false fun hr => h ((readRefused_busy_iff s wd off hb).mp hr))
  · rintro rfl rfl
    exact hostWrite_status s v
  · exact hostWrite_refused_level s wd off v hl ho (writeRefused_busy_of_ne_status s wd off hb h)

/-! ### FBUF seen by the host -/

theorem Memory.holds_nil (m : Memory) (off : Nat) : m.Holds off [] := fun k => k.elim0

theorem Memory.holds_cons {m : Memory} {off : Nat} {b : Byte} {S : Bytes} (h : m.read off = some b)
    (hS : m.Holds (off + 1) S) : m.Holds off (b :: S) := by
  rintro ⟨k, hk⟩
  cases k with
  | zero => exact h
  | succ k => simpa [Nat.add_assoc, Nat.add_comm 1] using hS ⟨k, Nat.lt_of_succ_lt_succ hk⟩

/-- The window offset of `FB[i]` has the alignment of i. -/
theorem fbuf_offset_aligned_iff (wd : Width) (i : Nat) : (0x100 + i) % wd.bytes = 0 ↔ i % wd.bytes = 0 := by
  cases wd <;> simp only [Width.bytes] <;> omega

/-- An aligned access that begins in FBUF ends in it. -/
theorem fbuf_access_fits (wd : Width) (i : Nat) (hi : i < 256) (ha : i % wd.bytes = 0) : i + wd.bytes ≤ 256 := by
  cases wd <;> simp only [Width.bytes] at ha ⊢ <;> omega

section
variable (s : State) (wd : Width) (i : Nat) (he : s.eng = .idle) (hi : i < 256) (ha : i % wd.bytes = 0)

include he hi ha

/-- An aligned read of written bytes of an idle FBUF answers their word (R64). -/
theorem memRead_fbuf_idle (S : Bytes) (hl : S.length = wd.bytes) (hS : s.fbuf.Holds i S) :
    memRead s wd (0x100 + i) = .next (s, wordOfBytes S) := by
  have hr := readRefused_idle_fbuf s wd (0x100 + i) he (by omega) ((fbuf_offset_aligned_iff wd i).mpr ha)
  simp [memRead, Config.windowSize, Config.fbufBase, hr, show ¬ 512 ≤ 256 + i by omega,
    (Memory.readSpan_eq_some_iff _ _ _ _).mpr ⟨hl, hS⟩]

/-- An aligned read of FBUF that covers an unwritten byte stops with the fault of R75. -/
theorem memRead_unwritten (k : Nat) (hk : k < wd.bytes) (h : s.fbuf.read (i + k) = none) :
    memRead s wd (0x100 + i) = .fault .unwrittenByte := by
  have hr := readRefused_idle_fbuf s wd (0x100 + i) he (by omega) ((fbuf_offset_aligned_iff wd i).mpr ha)
  simp [memRead, Config.windowSize, Config.fbufBase, hr, show ¬ 512 ≤ 256 + i by omega,
    (Memory.readSpan_eq_none_iff _ _ _).mpr ⟨k, hk, h⟩]

/-- An aligned write to an idle FBUF stores the bytes it carries (R65). -/
theorem memWrite_fbuf_idle (v : Word) :
    memWrite s wd (0x100 + i) v = .next { s with fbuf := s.fbuf.writeSpan i (bytesOfWord wd v) } := by
  have hr := writeRefused_idle_fbuf s wd (0x100 + i) he (by omega) ((fbuf_offset_aligned_iff wd i).mpr ha)
  simp [memWrite, Config.windowSize, Config.fbufBase, hr, show ¬ 512 ≤ 256 + i by omega]

end

/-- A 16-bit access carries its two bytes in the low half of the word (R54). -/
theorem wordOfBytes_half_toNat (b0 b1 : Byte) : (wordOfBytes [b0, b1]).toNat = b0.toNat + 2 ^ 8 * b1.toNat := by
  show (ofLe4 b0 b1 0 0).toNat = _
  simp [ofLe4_toNat]

/-- Settles O20: each read answers the word of the bytes it covers, and a byte write is one write of FBUF. -/
theorem mixedWidthViewsAgree : Obligations.MixedWidthViewsAgree := by
  refine fun s he hwf => ⟨fun q b0 b1 b2 b3 hq h0 h1 h2 h3 => ?_, fun q b0 b1 hq h0 h1 => ?_, fun i v hi => ?_⟩
  · have hS : s.fbuf.Holds (4 * q) [b0, b1, b2, b3] :=
      Memory.holds_cons h0 (Memory.holds_cons h1 (Memory.holds_cons h2 (Memory.holds_cons h3 (Memory.holds_nil _ _))))
    exact ⟨_, memRead_fbuf_idle s .word (4 * q) he (by omega) (Nat.mul_mod_right 4 q) _ rfl hS, ofLe4_toNat b0 b1 b2 b3⟩
  · have hS : s.fbuf.Holds (2 * q) [b0, b1] :=
      Memory.holds_cons h0 (Memory.holds_cons h1 (Memory.holds_nil _ _))
    exact ⟨_, memRead_fbuf_idle s .half (2 * q) he (by omega) (Nat.mul_mod_right 2 q) _ rfl hS,
      wordOfBytes_half_toNat b0 b1⟩
  · exact ⟨_, memWrite_fbuf_idle s .byte i he hi (Nat.mod_one i) v, fun a => Memory.read_write _ i _ a hwf hi⟩

/-- Settles O21: the write stores the span of the bytes it carries, which lies in FBUF. -/
theorem fbufStoreWritesExactlyItsBytes : Obligations.FbufStoreWritesExactlyItsBytes := by
  intro s wd i v he hwf hl hi ha
  have hlen : (bytesOfWord wd v).length = wd.bytes := bytesOfWord_length wd v
  have hfit : i + (bytesOfWord wd v).length ≤ 256 := hlen ▸ fbuf_access_fits wd i hi ha
  refine ⟨{ s with fbuf := s.fbuf.writeSpan i (bytesOfWord wd v) }, ?_, rfl, fun k hk => ?_, fun a hout => ?_⟩
  · simp only [hostWrite, memWrite_fbuf_idle s wd i he hi ha v]
    exact congrArg Host.Outcome.next (State.refreshIrq_of_level { s with fbuf := _ } hl)
  · have hk' : k < (bytesOfWord wd v).length := hlen ▸ hk
    rw [← bytesOfWord_get wd v k hk']
    exact Memory.read_writeSpan_inside _ _ i k hwf hfit hk'
  · exact Memory.read_writeSpan_outside _ _ i a hwf hfit (hlen.symm ▸ hout)

/-! ### Unwritten bytes (R75) -/

/-- A command that passes its pre-checks and works on a span with an unwritten byte faults. -/
theorem checked_onSpan_unwritten (s : State) (i : Instr) (off n k : Nat)
    (body : Bytes → Host.Outcome State Fault Refusal) (hp : precheck s i = none) (hk : k < n)
    (h : s.fbuf.read (off + k) = none) : checked s i (onSpan s off n body) = .fault .unwrittenByte := by
  rw [checked_of_none s i _ hp, onSpan_fault s off n k body hk h]

/-- Settles O25: a host read reads the span it covers, and a command with a span reads it after its pre-checks. -/
theorem unwrittenByteFaults : Obligations.UnwrittenByteFaults := by
  refine ⟨fun s wd off k he ha ho ho' hk h => ?_, fun s i off n k hp hs hk h => ?_⟩
  · obtain ⟨i, rfl⟩ := Nat.exists_eq_add_of_le ho
    rw [Nat.add_sub_cancel_left] at h
    have hfault := memRead_unwritten s wd i he (by omega) ((fbuf_offset_aligned_iff wd i).mp ha) k hk h
    simp only [hostRead, hfault]
  · cases i with
    | nop | kdf | kclr => cases hs
    | crc16 | bcd | ctr | cbciv | cbcz | cmac | cmacv =>
      cases hs
      exact checked_onSpan_unwritten s _ _ _ k _ hp hk h

/-! ### The end of a command (R142, R143) -/

/-- A completion stops on an unwritten byte, or ends with `finish` and leaves `IRQEN`. -/
theorem completion_total (w : Word) (s : State) : completion w s = .fault .unwrittenByte ∨
    ∃ (u : State) (e : ErrCode), completion w s = .next (u.finish e) ∧ u.irqen = s.irqen := by
  cases hd : decode w with
  | error d => exact .inr ⟨s, .illegal, completion_error w s d hd, rfl⟩
  | ok i =>
    rw [completion_ok w s i hd]
    obtain h | ⟨t, h⟩ := exec_total i s
    · exact .inl h
    · obtain ⟨u, e, rfl, hq⟩ := exec_next_finish i s t h
      exact .inr ⟨u, e, h, hq⟩

/-- Settles O7: a running engine's step is the completion, and a completion's last act is `finish`. -/
theorem completionEndsTheCommand : Obligations.CompletionEndsTheCommand := by
  refine fun s => ⟨fun w he => ?_, engineStep_idle s⟩
  rw [engineStep_run s w he]
  obtain h | ⟨u, e, h, hq⟩ := completion_total w s
  · exact .inl h
  · exact .inr ⟨u.finish e, h, rfl, rfl, rfl, hq⟩

/-- A write while a command runs, if it answers, leaves the engine and `CMD_LAST` (R66). -/
theorem hostWrite_busy_next (s t : State) (wd : Width) (off : Nat) (v : Word) (hb : s.busy = true)
    (h : hostWrite s wd off v = .next t) : t.eng = s.eng ∧ t.cmdLast = s.cmdLast := by
  obtain ⟨ho, -⟩ := hostWrite_next s t wd off v h
  obtain ⟨_, _, _, _, hw⟩ := hostWrite_busy s wd off v ho hb
  cases h.symm.trans hw
  exact ⟨rfl, rfl⟩

/-- A read, if it answers, leaves the engine and `CMD_LAST` (R61). -/
theorem hostRead_next_engine (s t : State) (wd : Width) (off : Nat) (h : hostRead s wd off = .next t) :
    t.eng = s.eng ∧ t.cmdLast = s.cmdLast := by
  obtain ⟨-, v, ⟨-, rfl⟩ | ⟨-, -, rfl⟩⟩ := hostRead_next s t wd off h <;> exact ⟨rfl, rfl⟩

/-- A `chk`, if it answers, leaves the engine and `CMD_LAST`. -/
theorem hostCheck_next_engine (s t : State) (off : Nat) (mask v : Word) (h : hostCheck s off mask v = .next t) :
    t.eng = s.eng ∧ t.cmdLast = s.cmdLast := by
  obtain ⟨d, ht⟩ := hostCheck_next s t off mask v h
  rw [ht]
  exact ⟨rfl, rfl⟩

/-- Under the invariant `resetIdle`, a running engine means that reset is not asserted (R158). -/
theorem State.rst_of_run (s : State) (w : Word) (hri : s.resetIdle) (he : s.eng = .run w) : s.rst = false :=
  Bool.eq_false_iff.mpr fun h => by cases he.symm.trans (hri h)

theorem serve_releaseReset_unasserted (s : State) (h : s.rst = false) : serve .releaseReset s = .next s := by
  simp [serve, State.leaveReset, h]

/-- Settles O8: while a command runs reset is not asserted, and the host's accesses leave the engine. -/
theorem nothingCancelsACommand : Obligations.NothingCancelsACommand := by
  intro s t w e rest hri he hs hc hp har hstep
  have hrst : s.rst = false := s.rst_of_run w hri he
  have hserve : serve e { s with script := rest } = .next t := by simpa [step, hs] using hstep
  suffices t.eng = s.eng ∧ t.cmdLast = s.cmdLast by rwa [he] at this
  cases e with
  | complete => exact absurd rfl hc
  | poll => exact absurd rfl hp
  | assertReset => exact absurd rfl har
  | releaseReset =>
    cases (serve_releaseReset_unasserted { s with script := rest } hrst).symm.trans hserve
    exact ⟨rfl, rfl⟩
  | read wd off =>
    exact hostRead_next_engine { s with script := rest } t wd off (by simpa [serve, hrst] using hserve)
  | write wd off v =>
    exact hostWrite_busy_next { s with script := rest } t wd off v (State.busy_run _ w he)
      (by simpa [serve, hrst] using hserve)
  | chk off mask v =>
    exact hostCheck_next_engine { s with script := rest } t off mask v (by simpa [serve, hrst] using hserve)

/-! ### What the commands leave of FBUF (R63) -/

/-- The only effects that store to FBUF are those of the three ciphers. -/
theorem Effect.fbuf_eq {s u : State} {i : Instr} {e : ErrCode} (h : Effect s i u e)
    (hctr : ∀ k off len, i ≠ .ctr k off len) (hcbciv : ∀ k off len, i ≠ .cbciv k off len)
    (hcbcz : ∀ k off n, i ≠ .cbcz k off n) : u.fbuf = s.fbuf := by
  cases h with
  | ctr k off len => exact absurd rfl (hctr k off len)
  | cbc _ off S b _ hi =>
    obtain ⟨k, off, len, rfl⟩ | ⟨k, off, n, rfl⟩ := hi
    · exact absurd rfl (hcbciv k off len)
    · exact absurd rfl (hcbcz k off n)
  | nothing | result | cmac | cmacv | kdfEnc | kdfMac | kclr | kclrAll => rfl

/-- Settles O37: none of these commands is a cipher. -/
theorem nonStoringCommandsKeepFbuf : Obligations.NonStoringCommandsKeepFbuf := by
  intro i s t hi h a
  obtain ⟨u, e, he, rfl⟩ := exec_next_effect i s t h
  have hfbuf : u.fbuf = s.fbuf := by
    obtain rfl | ⟨_, _, rfl⟩ | ⟨_, _, rfl⟩ | ⟨_, _, _, _, rfl⟩ | ⟨_, _, _, _, _, rfl⟩ | ⟨_, rfl⟩ | ⟨_, rfl⟩ := hi <;>
      exact he.fbuf_eq nofun nofun nofun
  rw [State.finish_fbuf, hfbuf]

/-- The span of a command that passes its pre-checks lies in FBUF (R94, R139). -/
theorem span_fits_of_precheck (s : State) (i : Instr) (off n : Nat) (hp : precheck s i = none)
    (hs : spanOf i = some (off, n)) : off + n ≤ 256 := by
  obtain ⟨-, hl, -⟩ := (precheck_eq_none_iff s i).mp hp
  simp only [spanLeaves, hs] at hl
  exact Nat.not_lt.mp (of_decide_eq_false hl)

@[simp] theorem cbcFinish_fbuf (s : State) (off n : Nat) : (cbcFinish s off n).fbuf = s.fbuf := by
  rw [cbcFinish_eq]

section
variable (s t : State) (key : KeySel) (off : Nat) (hwf : s.fbuf.wf)
include hwf

theorem ctr_fbuf_frame (len : Nat) (h : exec (.ctr key off len) s = .next t) : FbufKeptOutside s t off len := by
  obtain ⟨e, -, rfl⟩ | ⟨hp, S, hl, -, rfl⟩ := exec_ctr_next s t key off len h
  · exact fun _ _ => rfl
  · have hfit := span_fits_of_precheck s _ off len hp rfl
    exact fun a ha => Memory.read_writeSpan_outside _ _ off a hwf (by simpa [hl] using hfit) (by simpa [hl] using ha)

/-- `CBCIV` leaves the end of its span that is no whole block (R122). -/
theorem cbciv_fbuf_frame (len : Nat) (h : exec (.cbciv key off len) s = .next t) :
    FbufKeptOutside s t off (16 * (len / 16)) := by
  obtain ⟨e, -, rfl⟩ | ⟨hp, S, hl, hS, rfl⟩ := exec_cbciv_next s t key off len h
  · exact fun _ _ => rfl
  · have hfit := span_fits_of_precheck s _ off len hp rfl
    obtain ⟨-, hout⟩ := cbcDecrypt_written s (s.keyOf key) s.iv5 off (len / 16) S (by omega) (by omega) hwf hS
    simpa [FbufKeptOutside] using hout

theorem cbcz_fbuf_frame (n : Nat) (h : exec (.cbcz key off n) s = .next t) : FbufKeptOutside s t off (16 * n) := by
  obtain ⟨e, -, rfl⟩ | ⟨hp, S, hl, hS, rfl⟩ := exec_cbcz_next s t key off n h
  · exact fun _ _ => rfl
  · have hfit := span_fits_of_precheck s _ off (16 * n) hp rfl
    obtain ⟨-, hout⟩ := cbcDecrypt_written s (s.keyOf key) iv7 off n S (by omega) (by omega) hwf hS
    simpa [FbufKeptOutside] using hout

end

/-- The ciphers write no register but `STATUS`, and there not `MATCH`. -/
theorem cipher_registers_kept (i : Instr) (s t : State) (hi : (∃ k off len, i = .ctr k off len) ∨
      (∃ k off len, i = .cbciv k off len) ∨ ∃ k off n, i = .cbcz k off n) (h : exec i s = .next t) :
    t.result = s.result ∧ t.mac = s.mac ∧ KeysKept s t ∧ t.matched = s.matched := by
  obtain ⟨hresult, hmac⟩ := onlyTheirCommandsWriteResultAndMac i s t h
  obtain ⟨hkeys, -⟩ := onlyKdfAndKclrWriteKeys i s t h
  obtain ⟨-, hmatched⟩ := sentAndMatchFrame i s t h
  obtain ⟨_, _, _, rfl⟩ | ⟨_, _, _, rfl⟩ | ⟨_, _, _, rfl⟩ := hi <;>
    exact ⟨by simpa using hresult, by simpa using hmac, hkeys nofun nofun, by simpa using hmatched⟩

/-- Settles O38: the bytes by each cipher's own store, the registers by what only other commands write. -/
theorem cipherFrame : Obligations.CipherFrame := by
  refine fun s t key off hwf => ⟨fun len h => ?_, fun len h => ?_, fun n h => ?_⟩
  · obtain ⟨hr, hm, hk, hmt⟩ := cipher_registers_kept _ s t (.inl ⟨_, _, _, rfl⟩) h
    obtain ⟨hsent, -⟩ := sentAndMatchFrame _ s t h
    exact ⟨ctr_fbuf_frame s t key off hwf len h, hr, hm, hk, hmt, by simpa using hsent⟩
  · exact ⟨cbciv_fbuf_frame s t key off hwf len h,
      cipher_registers_kept _ s t (.inr (.inl ⟨_, _, _, rfl⟩)) h⟩
  · exact ⟨cbcz_fbuf_frame s t key off hwf n h,
      cipher_registers_kept _ s t (.inr (.inr ⟨_, _, _, rfl⟩)) h⟩

end Sys2Proof.Machine
end

section
/-! Proofs about the encoding (30_encoding.md R76 to R91): which row a word selects, what a word decodes to, that the
decoder and the encoder are inverse, and that the decoder rejects exactly the reserved encodings. -/

namespace Sys2Proof

open Laws Machine

/-! ### A word selects at most one row of the opcode map (R89) -/

/-- `OPC` of a row (R77). -/
def Op.opcode : Op → Nat
  | .nop => 0x00
  | .crc16 => 0x01
  | .bcd => 0x02
  | .ctr => 0x10
  | .cbciv => 0x11
  | .cbcz => 0x12
  | .cmac => 0x20
  | .cmacv => 0x21
  | .kdf => 0x30
  | .kclr => 0x31

theorem Op.mem_all (o : Op) : o ∈ Op.all := by cases o <;> decide

theorem Op.opcode_mem_fixedFields (o : Op) : (0, 6, o.opcode) ∈ o.fixedFields := by cases o <;> decide

theorem Op.opcode_of_selects (o : Op) (w : Word) (h : o.selects w = true) : field w 0 6 = o.opcode :=
  (o.selects_iff w).mp h _ o.opcode_mem_fixedFields

theorem Op.opcode_inj : ∀ o ∈ Op.all, ∀ o' ∈ Op.all, o.opcode = o'.opcode → o = o' := by decide

/-- Settles O3: a row fixes the opcode, and no two rows have the same one. -/
theorem atMostOneRowSelects : Obligations.AtMostOneRowSelects := fun w o o' h h' =>
  Op.opcode_inj o o.mem_all o' o'.mem_all ((o.opcode_of_selects w h).symm.trans (o'.opcode_of_selects w h'))

theorem rowOf_eq_some_iff (w : Word) (o : Op) : rowOf w = some o ↔ o.selects w = true := by
  have hsel (o' : Op) (h' : rowOf w = some o') : o'.selects w = true := by
    rw [rowOf] at h'
    exact List.find?_some (p := fun o : Op => o.selects w) h'
  refine ⟨hsel o, fun h => ?_⟩
  obtain ⟨o', h'⟩ : ∃ o', rowOf w = some o' :=
    Option.isSome_iff_exists.mp (List.find?_isSome.mpr ⟨o, o.mem_all, h⟩)
  rw [h', atMostOneRowSelects w o' o (hsel o' h') h]

/-! ### The operand fields (R80 to R88) -/

/-- A field is its low bits and, above them, the field that follows them. -/
theorem field_add (w : Word) (lo m n : Nat) : field w lo (m + n) = field w lo m + field w (lo + m) n * 2 ^ m := by
  simp only [field, Nat.pow_add, Nat.mod_mul, Nat.div_div_eq_div_mul, Nat.mul_comm]

theorem fieldKey_eq_ok_iff (w : Word) (k : KeySel) : fieldKey w = .ok k ↔ field w 6 2 = k.code := by
  unfold fieldKey
  split <;> cases k <;> simp_all [KeySel.code]

theorem exists_fieldKey_iff (w : Word) : (∃ k, fieldKey w = .ok k) ↔ field w 6 2 ≠ 3 := by
  have hlt : field w 6 2 < 4 := field_lt w 6 2
  unfold fieldKey
  split <;> simp_all
  omega

theorem fieldMaclen_eq_ok_iff (w : Word) (m : Nat) :
    fieldMaclen w = .ok m ↔ m ∈ Config.macLengths ∧ field w 25 3 = mlcOf m := by
  constructor
  · intro h
    unfold fieldMaclen at h
    split at h <;> cases h <;> simp [*] <;> decide
  · rintro ⟨hm, hf⟩
    simp only [Config.macLengths, List.mem_cons, List.not_mem_nil, or_false] at hm
    obtain rfl | rfl | rfl | rfl | rfl := hm <;> simp [fieldMaclen, hf, mlcOf, Config.macLengths]

theorem exists_fieldMaclen_iff (w : Word) : (∃ m, fieldMaclen w = .ok m) ↔ field w 25 3 < 5 := by
  unfold fieldMaclen
  split <;> simp_all
  omega

theorem fieldWid_mem_iff (w : Word) :
    fieldWid w ∈ Config.bcdWidths ↔ ¬(field w 16 3 = 0 ∨ field w 16 3 = 5 ∨ field w 16 3 = 7) := by
  have hlt : field w 16 3 < 8 := field_lt w 16 3
  simp [Config.bcdWidths, fieldWid]
  omega

/-- A field of one bit, read as a flag, is the flag exactly when it holds the flag's code. -/
theorem flag_eq_iff (w : Word) (lo : Nat) (b : Bool) : decide (field w lo 1 = 1) = b ↔ field w lo 1 = b.toNat := by
  have := field_lt w lo 1
  cases b <;> simp
  omega

theorem fieldDc_eq_iff (w : Word) (dc : DerivedKey) : fieldDc w = dc ↔ field w 8 1 = dc.code := by
  have := field_lt w 8 1
  unfold fieldDc
  cases dc <;> simp [DerivedKey.code]
  omega

/-! ### What a word decodes to (R90) -/

/-- The operand fields of the word are those of the command and hold no reserved value (R80 to R88). -/
def HoldsOperands (w : Word) : Instr → Prop
  | .nop => True
  | .crc16 off len => fieldOff w = off ∧ fieldLen w = len
  | .bcd off wid => fieldOff w = off ∧ fieldWid w = wid ∧ wid ∈ Config.bcdWidths
  | .ctr k off len => fieldKey w = .ok k ∧ fieldOff w = off ∧ fieldLen w = len
  | .cbciv k off len => fieldKey w = .ok k ∧ fieldOff w = off ∧ fieldLen w = len
  | .cbcz k off nblk => fieldKey w = .ok k ∧ fieldOff w = off ∧ fieldNblk w = nblk
  | .cmac k off len pfx => fieldKey w = .ok k ∧ fieldOff w = off ∧ fieldLen w = len ∧ fieldPfx w = pfx
  | .cmacv k off len maclen pfx =>
    fieldKey w = .ok k ∧ fieldMaclen w = .ok maclen ∧ fieldOff w = off ∧ fieldLen w = len ∧ fieldPfx w = pfx
  | .kdf dc => fieldDc w = dc
  | .kclr all => fieldAll w = all

/-- What a word decodes to is of the row it selects, with the operands its fields hold. -/
theorem row_operands_of_decode (w : Word) (i : Instr) (h : decode w = .ok i) :
    (rowFor i).selects w = true ∧ HoldsOperands w i := by
  rw [← rowOf_eq_some_iff]
  cases hrow : rowOf w with
  | none => simp [decode, hrow] at h
  | some o =>
    cases o <;> simp only [decode, hrow] at h
    case nop | crc16 | kdf | kclr =>
      cases h
      simp [rowFor, HoldsOperands]
    case bcd | ctr | cbciv | cbcz | cmac =>
      split at h <;> cases h
      simp [rowFor, HoldsOperands, *]
    case cmacv =>
      split at h <;> [cases h; split at h <;> cases h]
      simp [rowFor, HoldsOperands, *]

/-- A word decodes to the command of the row it selects whose operands its fields hold. -/
theorem decode_of_row_operands (w : Word) (i : Instr) (hr : (rowFor i).selects w = true) (h : HoldsOperands w i) :
    decode w = .ok i := by
  replace hr := (rowOf_eq_some_iff w _).mpr hr
  cases i with
  | nop => simp [decode, hr, rowFor]
  | crc16 | bcd | ctr | cbciv | cbcz | cmac | cmacv | kdf | kclr =>
    simp only [HoldsOperands] at h
    simp [decode, hr, rowFor, h]

/-! ### What encodes to a word (R78, R79) -/

/-- A word is the format R word of fields that fit exactly when it has these fields and its top three bits 0. -/
theorem ofNat_formatR_eq_iff (w : Word) {opc ksel off len mlc pfx : Nat} (h0 : opc < 64) (h1 : ksel < 4)
    (h2 : off < 256) (h3 : len < 512) (h4 : mlc < 8) (h5 : pfx < 2) :
    BitVec.ofNat 32 (formatR opc ksel off len mlc pfx) = w ↔
      field w 0 6 = opc ∧ field w 6 2 = ksel ∧ field w 8 8 = off ∧ field w 16 9 = len ∧ field w 25 3 = mlc ∧
        field w 28 1 = pfx ∧ field w 29 3 = 0 := by
  refine ⟨fun h => field_formatR _ _ _ _ _ _ h0 h1 h2 h3 h4 h5 w h.symm, ?_⟩
  rintro ⟨rfl, rfl, rfl, rfl, rfl, rfl, htop⟩
  have hw := toNat_eq_formatR w
  rw [htop, Nat.zero_mul, Nat.add_zero] at hw
  rw [← hw, BitVec.ofNat_toNat, BitVec.setWidth_eq]

theorem wf_of_holdsOperands (w : Word) (i : Instr) (h : HoldsOperands w i) : i.wf = true := by
  have hoff : fieldOff w < 256 := field_lt w 8 8
  have hlen : fieldLen w < 512 := field_lt w 16 9
  cases i with
  | nop | kdf dc | kclr all => rfl
  | crc16 off len =>
    obtain ⟨rfl, rfl⟩ := h
    simp [Instr.wf, hoff, hlen]
  | bcd off wid =>
    obtain ⟨rfl, -, hw⟩ := h
    simp [Instr.wf, hoff, hw]
  | ctr k off len | cbciv k off len =>
    obtain ⟨-, rfl, rfl⟩ := h
    simp [Instr.wf, hoff, hlen]
  | cbcz k off nblk =>
    obtain ⟨-, rfl, rfl⟩ := h
    have hnblk : fieldNblk w < 16 := field_lt w 16 4
    simp [Instr.wf, hoff, hnblk]
  | cmac k off len pfx =>
    obtain ⟨-, rfl, rfl, -⟩ := h
    simp [Instr.wf, hoff, hlen]
  | cmacv k off len maclen pfx =>
    obtain ⟨-, hm, rfl, rfl, -⟩ := h
    obtain ⟨hm, -⟩ := (fieldMaclen_eq_ok_iff w maclen).mp hm
    simp [Instr.wf, hoff, hlen, hm]

/-- A well-formed command encodes to exactly the words of its row whose fields hold its operands. -/
theorem encode_eq_iff (w : Word) (i : Instr) (h : i.wf = true) :
    encode i = w ↔ (rowFor i).selects w = true ∧ HoldsOperands w i := by
  have hoff := field_off_split w
  obtain ⟨hwid, hnblk⟩ := field_len_split w
  rw [Op.selects_iff]
  cases i <;>
    simp only [encode_nop, encode_crc16, encode_bcd, encode_ctr, encode_cbciv, encode_cbcz, encode_cmac, encode_cmacv,
      encode_kdf, encode_kclr, rowFor, Op.fixedFields, List.forall_mem_cons, List.not_mem_nil, false_implies,
      implies_true, and_true, HoldsOperands, fieldKey_eq_ok_iff, fieldMaclen_eq_ok_iff, fieldOff, fieldLen, fieldNblk,
      fieldWid, fieldPfx, fieldAll, flag_eq_iff, fieldDc_eq_iff, Instr.wf, Bool.and_eq_true,
      decide_eq_true_eq] at h ⊢
  case nop | crc16 => rw [ofNat_formatR_eq_iff] <;> omega
  case bcd =>
    simp only [Config.bcdWidths, List.mem_cons, List.not_mem_nil, or_false] at h ⊢
    rw [ofNat_formatR_eq_iff] <;> omega
  case ctr k _ _ | cbciv k _ _ | cbcz k _ _ =>
    have hk := keyCode_lt k
    rw [ofNat_formatR_eq_iff] <;> omega
  case cmac k _ _ pfx =>
    have hk := keyCode_lt k
    have hp := pfx.toNat_lt
    rw [ofNat_formatR_eq_iff] <;> omega
  case cmacv k _ _ maclen pfx =>
    obtain ⟨h, hmem⟩ := h
    have hk := keyCode_lt k
    have hp := pfx.toNat_lt
    have hm := mlcOf_lt maclen hmem
    simp only [hmem, true_and]
    rw [ofNat_formatR_eq_iff] <;> omega
  case kdf dc =>
    have hd : dc.code < 2 := by cases dc <;> decide
    have hdc := field_lt w 8 1
    have hsel := field_lt w 9 2
    rw [ofNat_formatR_eq_iff] <;> omega
  case kclr all =>
    have ha := all.toNat_lt
    rw [ofNat_formatR_eq_iff] <;> omega

/-- A word decodes to a command exactly when it encodes the command: both say that the word is of the command's row and
its fields hold the operands. -/
theorem decode_eq_ok_iff (w : Word) (i : Instr) : decode w = .ok i ↔ i.wf = true ∧ encode i = w := by
  constructor
  · intro h
    obtain ⟨hr, ho⟩ := row_operands_of_decode w i h
    have hwf := wf_of_holdsOperands w i ho
    exact ⟨hwf, (encode_eq_iff w i hwf).mpr ⟨hr, ho⟩⟩
  · rintro ⟨hwf, he⟩
    obtain ⟨hr, ho⟩ := (encode_eq_iff w i hwf).mp he
    exact decode_of_row_operands w i hr ho

/-- Settles O1: the word decodes to whatever encodes to it. -/
theorem decodeInvertsEncode : Obligations.DecodeInvertsEncode := fun i h => (decode_eq_ok_iff _ i).mpr ⟨h, rfl⟩

/-- Settles O2: whatever the word decodes to encodes to it. -/
theorem encodeInvertsDecode : Obligations.EncodeInvertsDecode := fun w i h => (decode_eq_ok_iff w i).mp h

/-! ### The reserved encodings (R91) -/

theorem field_add_eq_zero_iff (w : Word) (lo m n : Nat) :
    field w lo (m + n) = 0 ↔ field w lo m = 0 ∧ field w (lo + m) n = 0 := by
  simp [field_add]

/-- The reserved bits up to bit 28 of each format, by the fields of format R they stand in (R77). -/
theorem reserved_eq_zero_iff (w : Word) :
    (field w 25 4 = 0 ↔ field w 25 3 = 0 ∧ field w 28 1 = 0) ∧
      (field w 19 10 = 0 ↔ field w 19 6 = 0 ∧ field w 25 3 = 0 ∧ field w 28 1 = 0) ∧
      (field w 20 9 = 0 ↔ field w 20 5 = 0 ∧ field w 25 3 = 0 ∧ field w 28 1 = 0) ∧
      (field w 11 18 = 0 ↔ field w 11 5 = 0 ∧ field w 16 9 = 0 ∧ field w 25 3 = 0 ∧ field w 28 1 = 0) ∧
      (field w 9 20 = 0 ↔
        field w 9 2 = 0 ∧ field w 11 5 = 0 ∧ field w 16 9 = 0 ∧ field w 25 3 = 0 ∧ field w 28 1 = 0) ∧
      (field w 6 23 = 0 ↔
        field w 6 2 = 0 ∧ field w 8 8 = 0 ∧ field w 16 9 = 0 ∧ field w 25 3 = 0 ∧ field w 28 1 = 0) := by
  have h25 := field_add_eq_zero_iff w 25 3 1
  have h16 := (field_add_eq_zero_iff w 16 9 4).trans (and_congr_right' h25)
  have h11 := (field_add_eq_zero_iff w 11 5 13).trans (and_congr_right' h16)
  have h8 := (field_add_eq_zero_iff w 8 8 13).trans (and_congr_right' h16)
  exact ⟨h25, (field_add_eq_zero_iff w 19 6 4).trans (and_congr_right' h25),
    (field_add_eq_zero_iff w 20 5 4).trans (and_congr_right' h25), h11,
    (field_add_eq_zero_iff w 9 2 18).trans (and_congr_right' h11),
    (field_add_eq_zero_iff w 6 2 21).trans (and_congr_right' h8)⟩

theorem legalWord_of_row_operands (w : Word) (i : Instr) (hr : (rowFor i).selects w = true)
    (h : HoldsOperands w i) : LegalWord w = true := by
  rw [Op.selects_iff] at hr
  obtain ⟨h25, h19, h20, h11, h9, h6⟩ := reserved_eq_zero_iff w
  cases i <;> simp [rowFor, Op.fixedFields] at hr <;> simp [LegalWord, *]
  case bcd off wid =>
    obtain ⟨-, rfl, hw⟩ := h
    simpa [and_assoc] using (fieldWid_mem_iff w).mp hw
  case ctr k _ _ | cbciv k _ _ | cbcz k _ _ | cmac k _ _ _ =>
    obtain ⟨hk, -⟩ := h
    exact (exists_fieldKey_iff w).mp ⟨k, hk⟩
  case cmacv k off len maclen pfx =>
    obtain ⟨hk, hm, -⟩ := h
    have hlt := (exists_fieldMaclen_iff w).mp ⟨maclen, hm⟩
    exact ⟨(exists_fieldKey_iff w).mp ⟨k, hk⟩, by omega⟩

theorem row_operands_of_legalWord (w : Word) (h : LegalWord w = true) :
    ∃ i, (rowFor i).selects w = true ∧ HoldsOperands w i := by
  obtain ⟨h25, h19, h20, h11, h9, h6⟩ := reserved_eq_zero_iff w
  simp only [LegalWord, Bool.and_eq_true, beq_iff_eq] at h
  obtain ⟨h29, h⟩ := h
  simp only [Op.selects_iff]
  split at h <;> simp [h25, h19, h20, h11, h9, h6] at h
  · exact ⟨.nop, by simp [rowFor, Op.fixedFields, *], trivial⟩
  · exact ⟨.crc16 _ _, by simp [rowFor, Op.fixedFields, *], rfl, rfl⟩
  · obtain ⟨h, hw⟩ := h
    exact ⟨.bcd _ _, by simp [rowFor, Op.fixedFields, *], rfl, rfl, (fieldWid_mem_iff w).mpr (by omega)⟩
  · obtain ⟨hk, h⟩ := h
    obtain ⟨k, hk⟩ := (exists_fieldKey_iff w).mpr hk
    exact ⟨.ctr k _ _, by simp [rowFor, Op.fixedFields, *], hk, rfl, rfl⟩
  · obtain ⟨hk, h⟩ := h
    obtain ⟨k, hk⟩ := (exists_fieldKey_iff w).mpr hk
    exact ⟨.cbciv k _ _, by simp [rowFor, Op.fixedFields, *], hk, rfl, rfl⟩
  · obtain ⟨hk, h⟩ := h
    obtain ⟨k, hk⟩ := (exists_fieldKey_iff w).mpr hk
    exact ⟨.cbcz k _ _, by simp [rowFor, Op.fixedFields, *], hk, rfl, rfl⟩
  · obtain ⟨hk, h⟩ := h
    obtain ⟨k, hk⟩ := (exists_fieldKey_iff w).mpr hk
    exact ⟨.cmac k _ _ _, by simp [rowFor, Op.fixedFields, *], hk, rfl, rfl, rfl⟩
  · obtain ⟨hk, hm⟩ := h
    obtain ⟨k, hk⟩ := (exists_fieldKey_iff w).mpr hk
    have hlt : field w 25 3 < 8 := field_lt w 25 3
    obtain ⟨m, hm⟩ := (exists_fieldMaclen_iff w).mpr (by omega)
    exact ⟨.cmacv k _ _ m _, by simp [rowFor, Op.fixedFields, *], hk, hm, rfl, rfl, rfl⟩
  · exact ⟨.kdf _, by simp [rowFor, Op.fixedFields, *], rfl⟩
  · exact ⟨.kclr _, by simp [rowFor, Op.fixedFields, *], rfl⟩

/-- Legality field by field (R77, R91) is being of some row with legal operands. -/
theorem decode_ok_iff_legalWord (w : Word) : (∃ i, decode w = .ok i) ↔ LegalWord w = true := by
  constructor
  · rintro ⟨i, h⟩
    obtain ⟨hr, ho⟩ := row_operands_of_decode w i h
    exact legalWord_of_row_operands w i hr ho
  · intro h
    obtain ⟨i, hr, ho⟩ := row_operands_of_legalWord w h
    exact ⟨i, decode_of_row_operands w i hr ho⟩

/-- Settles O4: by the fields, and a word that is not decoded completes with `finish` alone. -/
theorem reservedEncodingsAreIllegal : Obligations.ReservedEncodingsAreIllegal := by
  refine fun w => ⟨decode_ok_iff_legalWord w, fun hw s => ?_⟩
  cases hd : decode w with
  | ok i => exact absurd ((decode_ok_iff_legalWord w).mp ⟨i, hd⟩) (by simp [hw])
  | error e => exact completion_error w s e hd

/-- Settles O5: the words are given, so each is decoded. -/
theorem wordsOfTheTableDecode : Obligations.WordsOfTheTableDecode := by
  unfold Obligations.WordsOfTheTableDecode
  decide

end Sys2Proof
end

section
/-! Proofs about the codec commands (40_codec.md R97 to R102): the completion of `CRC16` and `BCD`, the value and the
range of a BCD byte string, and the residue of the CRC. -/

namespace Sys2Proof.Machine

/-! ### The completion of `CRC16` and `BCD` (R99, R102) -/

/-- A command whose pre-checks pass and whose span holds S runs its pseudocode on S. -/
theorem checked_onSpan_of_holds (s : State) (i : Instr) (off n : Nat) (S : Bytes)
    (body : Bytes → Host.Outcome State Fault Refusal) (hp : precheck s i = none) (hl : S.length = n)
    (hS : s.fbuf.Holds off S) : checked s i (onSpan s off n body) = body S := by
  rw [checked_of_none s i _ hp, onSpan_of_holds s off n S body hl hS]

theorem precheck_crc16_eq_none (s : State) (off len : Nat) (ho : off < 256) (hf : off + len ≤ 256) :
    precheck s (.crc16 off len) = none := by
  refine precheck_none s _ ?_ ?_ nofun
  · simp [Instr.wf, ho, show len < 512 by omega]
  · rintro _ _ ⟨⟩
    exact hf

theorem precheck_bcd_eq_none (s : State) (off wid : Nat) (ho : off < 256) (hw : wid ∈ Config.bcdWidths)
    (hf : off + wid ≤ 256) : precheck s (.bcd off wid) = none := by
  refine precheck_none s _ ?_ ?_ nofun
  · simp [Instr.wf, ho, hw]
  · rintro _ _ ⟨⟩
    exact hf

/-- A 16-bit value in `RESULT` reads as itself in `RESULT0` and as 0 in `RESULT1` (R28). -/
theorem regRead_result_of_zeroExtend (t : State) (c : BitVec 16) (h : t.result = c.zeroExtend 64) :
    t.regRead 0x010 = c.zeroExtend 32 ∧ t.regRead 0x014 = 0#32 := by
  have h0 : t.regRead 0x010 = t.result.extractLsb' 0 32 := rfl
  have h1 : t.regRead 0x014 = t.result.extractLsb' 32 32 := rfl
  rw [h0, h1, h]
  constructor <;> ext i hi
  · simp [show i < 64 by omega]
  · simp [c.getLsbD_of_ge (32 + i) (by omega)]

/-- Settles O28: the pre-checks pass and the span is written, so the pseudocode runs to its `complete()`. -/
theorem crc16Completes : Obligations.Crc16Completes := fun s off len S ho hf hl hS =>
  ⟨_, checked_onSpan_of_holds s _ off len S _ (precheck_crc16_eq_none s off len ho hf) hl hS, rfl,
    regRead_result_of_zeroExtend _ _ rfl⟩

/-- Settles O29: the pseudocode runs, and the decoded value decides which of its two ends is reached. -/
theorem bcdCompletes : Obligations.BcdCompletes := by
  intro s off wid S ho hw hf hl hS
  have hrun : exec (.bcd off wid) s = _ :=
    checked_onSpan_of_holds s _ off wid S _ (precheck_bcd_eq_none s off wid ho hw hf) hl hS
  constructor
  · intro r hr
    simp only [hrun, hr]
    rfl
  · intro hr
    simp only [hrun, hr]
    rfl

/-! ### The digits of a BCD byte string (R101) -/

/-- The digits of a string of digit pairs, the low digit of each pair first. -/
def pairDigits (ds : List (Nat × Nat)) : List Nat := ds.flatMap fun d => [d.1, d.2]

@[simp] theorem pairDigits_cons (d : Nat × Nat) (ds : List (Nat × Nat)) :
    pairDigits (d :: ds) = d.1 :: d.2 :: pairDigits ds := rfl

@[simp] theorem pairDigits_append_singleton (ds : List (Nat × Nat)) (lo top : Nat) :
    pairDigits (ds ++ [(lo, top)]) = pairDigits ds ++ [lo] ++ [top] := by
  simp [pairDigits]

theorem forall_mem_pairDigits (p : Nat → Prop) (ds : List (Nat × Nat)) :
    (∀ d ∈ pairDigits ds, p d) ↔ ∀ d ∈ ds, p d.1 ∧ p d.2 := by
  induction ds with
  | nil => simp [pairDigits]
  | cons d ds ih => simp [-Prod.forall, ih, and_assoc]

theorem digitSum_eq_ofDigits (ds : List (Nat × Nat)) : digitSum ds = Nat.ofDigits 10 (pairDigits ds) := by
  rw [Nat.ofDigits_eq_sum_mapIdx, List.mapIdx_eq_zipIdx_map]
  rfl

/-- The digits of a packed string are the digits that were packed. -/
theorem bcdDigits_packDigits (ds : List (Nat × Nat)) (h : ∀ d ∈ ds, d.1 < 16 ∧ d.2 < 16) :
    bcdDigits (packDigits ds) = pairDigits ds := by
  induction ds with
  | nil => rfl
  | cons d ds ih =>
    obtain ⟨⟨hlo, hhi⟩, hds⟩ := List.forall_mem_cons.mp h
    have hb : (BitVec.ofNat 8 (d.1 + 16 * d.2)).toNat = d.1 + 16 * d.2 := Nat.mod_eq_of_lt (by omega)
    calc bcdDigits (packDigits (d :: ds))
      _ = (d.1 + 16 * d.2) % 16 :: (d.1 + 16 * d.2) / 16 :: bcdDigits (packDigits ds) := by
        simp [packDigits, bcdDigits, hb]
      _ = pairDigits (d :: ds) := by
        rw [ih hds, show (d.1 + 16 * d.2) % 16 = d.1 by omega, show (d.1 + 16 * d.2) / 16 = d.2 by omega]
        rfl

@[simp] theorem bcdDigits_length (B : Bytes) : (bcdDigits B).length = 2 * B.length := by
  induction B with
  | nil => rfl
  | cons b bs ih => simp [bcdDigits, ih, Nat.mul_add]

/-- A byte string of width w ≥ 1 has a top digit, and 2w - 1 digits below it. -/
theorem exists_bcdDigits_eq_append_top (B : Bytes) (h : 1 ≤ B.length) :
    ∃ ds top, bcdDigits B = ds ++ [top] ∧ ds.length = 2 * B.length - 1 := by
  have hne : bcdDigits B ≠ [] := List.ne_nil_of_length_pos (by rw [bcdDigits_length]; omega)
  exact ⟨_, _, (List.dropLast_append_getLast hne).symm, by simp⟩

/-! ### The magnitude of a digit string (R101) -/

/-- The model's sum of `d[k] · 10^k` is Mathlib's value of a digit list in base ten. -/
theorem decimalValue_eq_ofDigits (ds : List Nat) : decimalValue ds = Nat.ofDigits 10 ds := by
  induction ds with
  | nil => rfl
  | cons d ds ih => simp [decimalValue, Nat.ofDigits_cons, ih]

theorem bcdMagnitude_eq_some_iff (ds : List Nat) (m : Nat) :
    bcdMagnitude ds = some m ↔ (∀ d ∈ ds, d ≤ 9) ∧ Nat.ofDigits 10 ds = m := by
  simp [bcdMagnitude, decimalValue_eq_ofDigits]

theorem bcdMagnitude_eq_none_iff (ds : List Nat) : bcdMagnitude ds = none ↔ ¬ ∀ d ∈ ds, d ≤ 9 := by
  simp [bcdMagnitude]

/-- A leading digit 0 counts nothing. -/
theorem bcdMagnitude_append_zero (ds : List Nat) : bcdMagnitude (ds ++ [0]) = bcdMagnitude ds := by
  simp [bcdMagnitude, decimalValue_eq_ofDigits, Nat.ofDigits_append_zero]

theorem bcdMagnitude_lt (ds : List Nat) (m : Nat) (h : bcdMagnitude ds = some m) : m < 10 ^ ds.length := by
  obtain ⟨hd, rfl⟩ := (bcdMagnitude_eq_some_iff ds m).mp h
  exact Nat.ofDigits_lt_base_pow_length (by omega) fun d hm => Nat.lt_succ_of_le (hd d hm)

theorem bcdMagnitude_pairDigits (ds : List (Nat × Nat)) (h : ∀ d ∈ ds, d.1 ≤ 9 ∧ d.2 ≤ 9) :
    bcdMagnitude (pairDigits ds) = some (digitSum ds) :=
  (bcdMagnitude_eq_some_iff _ _).mpr ⟨(forall_mem_pairDigits (· ≤ 9) ds).mpr h, (digitSum_eq_ofDigits ds).symm⟩

theorem bcdMagnitude_pairDigits_eq_none (ds : List (Nat × Nat)) (h : ∃ d ∈ ds, 9 < d.1 ∨ 9 < d.2) :
    bcdMagnitude (pairDigits ds) = none := by
  rw [bcdMagnitude_eq_none_iff, forall_mem_pairDigits (· ≤ 9)]
  intro hall
  obtain ⟨d, hd, hbad⟩ := h
  have := hall d hd
  omega

/-! ### The value of a BCD byte string (R101, R102) -/

/-- The top digit 0xF is the sign, and the digits below it are the magnitude. -/
theorem bcdValue_of_sign (B : Bytes) (ds : List Nat) (h : bcdDigits B = ds ++ [15]) :
    bcdValue B = (bcdMagnitude ds).map fun m : Nat => -(m : Int) := by
  simp [bcdValue, h, bcdMagnitude_append_zero]

theorem bcdValue_of_no_sign (B : Bytes) (ds : List Nat) (top : Nat) (h : bcdDigits B = ds ++ [top]) (ht : top ≠ 15) :
    bcdValue B = (bcdMagnitude (ds ++ [top])).map fun m : Nat => (m : Int) := by
  simp [bcdValue, h, ht]

section
variable (ds : List (Nat × Nat)) (lo top : Nat) (hds : ∀ d ∈ ds, d.1 < 16 ∧ d.2 < 16) (hlo : lo < 16)
include hds hlo

theorem bcdDigits_packDigits_append (ht : top < 16) :
    bcdDigits (packDigits (ds ++ [(lo, top)])) = pairDigits (ds ++ [(lo, top)]) :=
  bcdDigits_packDigits _ (List.forall_mem_append.mpr ⟨hds, List.forall_mem_singleton.mpr ⟨hlo, ht⟩⟩)

theorem bcdValue_packDigits_sign : bcdValue (packDigits (ds ++ [(lo, 15)])) =
    (bcdMagnitude (pairDigits (ds ++ [(lo, 0)]))).map fun m : Nat => -(m : Int) := by
  have h := bcdDigits_packDigits_append ds lo 15 hds hlo (by omega)
  rw [pairDigits_append_singleton] at h ⊢
  rw [bcdValue_of_sign _ _ h, bcdMagnitude_append_zero]

theorem bcdValue_packDigits_no_sign (ht : top < 16) (hs : top ≠ 15) : bcdValue (packDigits (ds ++ [(lo, top)])) =
    (bcdMagnitude (pairDigits (ds ++ [(lo, top)]))).map fun m : Nat => (m : Int) := by
  have h := bcdDigits_packDigits_append ds lo top hds hlo ht
  rw [pairDigits_append_singleton] at h ⊢
  exact bcdValue_of_no_sign _ _ top h hs

end

/-- Settles O43: the magnitude of the digits, the top one taken for 0 where it is the sign. -/
theorem bcdValueOfDigits : Obligations.BcdValueOfDigits := by
  intro ds lo top hds hlo ht
  refine ⟨fun hall hlo9 ht9 => ?_, fun hall hlo9 hs => ?_, fun hbad => ?_⟩
  · rw [bcdValue_packDigits_no_sign ds lo top hds hlo ht (by omega), bcdMagnitude_pairDigits]
    · rfl
    · exact List.forall_mem_append.mpr ⟨hall, List.forall_mem_singleton.mpr ⟨hlo9, ht9⟩⟩
  · rw [hs, bcdValue_packDigits_sign ds lo hds hlo, bcdMagnitude_pairDigits]
    · rfl
    · exact List.forall_mem_append.mpr ⟨hall, List.forall_mem_singleton.mpr ⟨hlo9, Nat.zero_le 9⟩⟩
  · by_cases hs : top = 15
    · rw [hs, bcdValue_packDigits_sign ds lo hds hlo, bcdMagnitude_pairDigits_eq_none, Option.map_none]
      obtain ⟨d, hd, h⟩ | h | h := hbad
      · exact ⟨d, by simp [hd], h⟩
      · exact ⟨(lo, 0), by simp, .inl h⟩
      · omega
    · rw [bcdValue_packDigits_no_sign ds lo top hds hlo ht hs, bcdMagnitude_pairDigits_eq_none, Option.map_none]
      obtain ⟨d, hd, h⟩ | h | h := hbad
      · exact ⟨d, by simp [hd], h⟩
      · exact ⟨(lo, top), by simp, .inl h⟩
      · exact ⟨(lo, top), by simp, .inr h.1⟩

/-- The range of a value of width w ≥ 1: with a sign 2w - 1 digits are left for the magnitude. -/
theorem bcdValue_bounds (B : Bytes) (r : Int) (hw : 1 ≤ B.length) (h : bcdValue B = some r) :
    -(10 ^ (2 * B.length - 1) - 1) ≤ r ∧ r ≤ 10 ^ (2 * B.length) - 1 := by
  obtain ⟨ds, top, hd, hl⟩ := exists_bcdDigits_eq_append_top B hw
  by_cases ht : top = 15
  · rw [bcdValue_of_sign B ds (ht ▸ hd), Option.map_eq_some_iff] at h
    obtain ⟨m, hm, rfl⟩ := h
    have hlt : (m : Int) < 10 ^ (2 * B.length - 1) := by exact_mod_cast hl ▸ bcdMagnitude_lt ds m hm
    have hpos : (0 : Int) < 10 ^ (2 * B.length) := by positivity
    omega
  · rw [bcdValue_of_no_sign B ds top hd ht, Option.map_eq_some_iff, ← hd] at h
    obtain ⟨m, hm, rfl⟩ := h
    have hlt : (m : Int) < 10 ^ (2 * B.length) := by exact_mod_cast bcdDigits_length B ▸ bcdMagnitude_lt _ m hm
    have hpos : (0 : Int) < 10 ^ (2 * B.length - 1) := by positivity
    omega

/-- Settles O44: the range, which for w ≤ 6 lies within 10^12 of 0 and so in 64 bits. -/
theorem bcdValueFits : Obligations.BcdValueFits := by
  intro B r hw h
  obtain ⟨hlow, hhigh⟩ := bcdValue_bounds B r hw h
  refine ⟨hlow, hhigh, fun h6 => ?_⟩
  have hlow12 : (10 : Int) ^ (2 * B.length - 1) ≤ 10 ^ 12 := pow_le_pow_right₀ (by omega) (by omega)
  have hhigh12 : (10 : Int) ^ (2 * B.length) ≤ 10 ^ 12 := pow_le_pow_right₀ (by omega) (by omega)
  exact BitVec.toInt_ofInt_eq_self (by omega) (by omega) (by omega)

/-! ### The CRC over data and its own CRC (R97, R99) -/

/-- One bit of the update is linear: the polynomial enters twice, and so not at all, where both registers shift a
1 out. -/
theorem crc16Shift_xor (a b : BitVec 16) : crc16Shift (a ^^^ b) = crc16Shift a ^^^ crc16Shift b := by
  unfold crc16Shift
  rw [BitVec.getLsbD_xor, BitVec.shiftLeft_xor_distrib]
  generalize a <<< 1 = x, b <<< 1 = y, Config.crcPoly = p
  have htwice : (x ^^^ p) ^^^ (y ^^^ p) = x ^^^ y :=
    calc (x ^^^ p) ^^^ (y ^^^ p)
      _ = (x ^^^ y) ^^^ (p ^^^ p) := by ac_rfl
      _ = x ^^^ y := by simp
  cases a.getLsbD 15 <;> cases b.getLsbD 15
  · rfl
  · exact BitVec.xor_assoc x y p
  · show x ^^^ y ^^^ p = (x ^^^ p) ^^^ y
    ac_rfl
  · exact htwice.symm

theorem crc16Shifts_xor (n : Nat) (a b : BitVec 16) :
    crc16Shifts n (a ^^^ b) = crc16Shifts n a ^^^ crc16Shifts n b := by
  induction n generalizing a b with
  | zero => rfl
  | succ n ih => simp only [crc16Shifts, crc16Shift_xor, ih]

/-- The update is linear in the register and the byte together. -/
theorem crc16Byte_xor (c d : BitVec 16) (a b : Byte) :
    crc16Byte (c ^^^ d) (a ^^^ b) = crc16Byte c a ^^^ crc16Byte d b := by
  unfold crc16Byte
  rw [← crc16Shifts_xor, BitVec.zeroExtend, BitVec.setWidth_xor, BitVec.shiftLeft_xor_distrib]
  congr 1
  ac_rfl

/-- While the bits that leave the register are 0, the update is a plain shift. -/
theorem crc16Shifts_eq_shiftLeft (n : Nat) (c : BitVec 16) (h : ∀ i < n, c.getMsbD i = false) :
    crc16Shifts n c = c <<< n := by
  induction n generalizing c with
  | zero => simp [crc16Shifts]
  | succ n ih =>
    have hs : crc16Shift c = c <<< 1 := if_neg (Bool.eq_false_iff.mp (h 0 (by omega)))
    rw [crc16Shifts, hs, ih, ← BitVec.shiftLeft_add, Nat.add_comm]
    intro i hi
    simpa using h (i + 1) (by omega)

/-- The register with its own high byte fed in is its low byte. -/
theorem xor_high_byte (c : BitVec 16) :
    c ^^^ ((c.extractLsb' 8 8).zeroExtend 16 <<< 8) = (c.extractLsb' 0 8).zeroExtend 16 := by
  refine BitVec.eq_of_getLsbD_eq fun i hi => ?_
  by_cases h8 : i < 8
  · simp [h8, hi]
  · simp [h8, hi, show i - 8 < 8 by omega, show 8 + (i - 8) = i by omega]

/-- A byte in the low half of the register reaches the high half before any bit leaves. -/
theorem crc16Shifts_zeroExtend (b : Byte) : crc16Shifts 8 (b.zeroExtend 16) = b.zeroExtend 16 <<< 8 := by
  refine crc16Shifts_eq_shiftLeft 8 _ fun i hi => ?_
  simp [BitVec.getMsbD, b.getLsbD_of_ge (15 - i) (by omega)]

/-- The two bytes of a register value, most significant first. -/
def crcBytes (c : BitVec 16) : Bytes := [c.extractLsb' 8 8, c.extractLsb' 0 8]

/-- The register's own bytes bring it to 0: the high byte leaves the low one, which then cancels itself. -/
theorem foldl_crcBytes (c : BitVec 16) : (crcBytes c).foldl crc16Byte c = 0#16 := by
  have hhigh : crc16Byte c (c.extractLsb' 8 8) = (c.extractLsb' 0 8).zeroExtend 16 <<< 8 := by
    rw [crc16Byte, xor_high_byte, crc16Shifts_zeroExtend]
  calc (crcBytes c).foldl crc16Byte c
    _ = crc16Byte (crc16Byte c (c.extractLsb' 8 8)) (c.extractLsb' 0 8) := rfl
    _ = crc16Shifts 8 0#16 := by rw [hhigh, crc16Byte, BitVec.xor_self]
    _ = 0#16 := rfl

/-- Feeding the bytes of a register value is linear in the register and the value together. -/
theorem foldl_crcBytes_xor (c d x y : BitVec 16) :
    (crcBytes (x ^^^ y)).foldl crc16Byte (c ^^^ d) =
      (crcBytes x).foldl crc16Byte c ^^^ (crcBytes y).foldl crc16Byte d := by
  simp [crcBytes, BitVec.extractLsb'_xor, crc16Byte_xor]

/-- The CRC over data and its own CRC depends on the final XOR value only: the CRC without it cancels itself. -/
theorem crc16_append_crcBytes (S : Bytes) (x : BitVec 16) :
    crc16 (S ++ crcBytes (crc16 S x)) x = crc16 (crcBytes x) x := by
  have h := foldl_crcBytes_xor (S.foldl crc16Byte Config.crcInit) 0#16 (S.foldl crc16Byte Config.crcInit) x
  rw [foldl_crcBytes, BitVec.xor_zero, BitVec.zero_xor] at h
  simp only [crc16, List.foldl_append, h]
  rfl

theorem crc16_replicate_zero (n : Nat) (x : BitVec 16) : crc16 (List.replicate n 0x00#8) x = x := by
  have h : (List.replicate n 0x00#8).foldl crc16Byte 0#16 = 0#16 := by
    have hz : crc16Byte 0#16 0x00#8 = 0#16 := rfl
    induction n with
    | zero => rfl
    | succ n ih => rw [List.replicate_succ, List.foldl_cons, hz, ih]
  simp [crc16, Config.crcInit, h]

/-- Settles O45: the residue is the CRC of the two bytes of the final XOR value. -/
theorem crcResidueIsConstant : Obligations.CrcResidueIsConstant :=
  ⟨fun S => (crc16_append_crcBytes S 0x0000#16).trans (crc16_replicate_zero 2 0x0000#16),
    fun S => (crc16_append_crcBytes S 0xFFFF#16).trans (by decide +kernel), crc16_replicate_zero⟩

end Sys2Proof.Machine
end

section
/-! Proofs about the AES core (41_aes_core.md R104 to R115): the cipher and the inverse cipher undo each other, the S-box
is the affine map of the field inverse, and CMAC gives its published check values. -/

namespace Sys2Proof.Machine

/-! ### The rounds (R110) -/

/-- `SubBytes` then `ShiftRows`, the part of the cipher that every round does (R110). -/
def subShift (s : Block) : Block := shiftRows (subBytes s)

/-- `InvShiftRows` then `InvSubBytes`, the part of the inverse cipher that every round does (R110). -/
def invShiftSub (s : Block) : Block := invSubBytes (invShiftRows s)

@[simp] theorem invShiftSub_subShift (s : Block) : invShiftSub (subShift s) = s := by
  simp [invShiftSub, subShift]

@[simp] theorem subShift_invShiftSub (s : Block) : subShift (invShiftSub s) = s := by
  simp [invShiftSub, subShift]

/-- A middle round of the cipher (R110). -/
def encRound (s rk : Block) : Block := (mixColumns (subShift s)).xor rk

/-- A middle round of the inverse cipher (R110). -/
def decRound (s rk : Block) : Block := invMixColumns ((invShiftSub s).xor rk)

/-- The inverse cipher meets a round of the cipher one half round later, so the two cancel up to `subShift`. -/
theorem decRound_subShift_encRound (s rk : Block) : decRound (subShift (encRound s rk)) rk = subShift s := by
  simp [decRound, encRound]

theorem encRound_invShiftSub_decRound (s rk : Block) : encRound (invShiftSub (decRound s rk)) rk = invShiftSub s := by
  simp [decRound, encRound]

/-- With round keys still to come, a round of the cipher is a middle round (R110). -/
theorem encRounds_cons (s rk : Block) {rks : List Block} (h : rks ≠ []) :
    encRounds s (rk :: rks) = encRounds (encRound s rk) rks := by
  cases rks with
  | nil => exact absurd rfl h
  | cons rk' rks => rfl

theorem encRounds_concat (s : Block) (mids : List Block) (last : Block) :
    encRounds s (mids ++ [last]) = (subShift (mids.foldl encRound s)).xor last := by
  induction mids generalizing s with
  | nil => rfl
  | cons rk mids ih =>
    rw [List.cons_append, encRounds_cons s rk (by simp), ih, List.foldl_cons]

/-- With round keys still to come, a round of the inverse cipher is a middle round (R110). -/
theorem decRounds_cons (s rk : Block) {rks : List Block} (h : rks ≠ []) :
    decRounds s (rk :: rks) = decRounds (decRound s rk) rks := by
  cases rks with
  | nil => exact absurd rfl h
  | cons rk' rks => rfl

theorem decRounds_concat (s : Block) (mids : List Block) (last : Block) :
    decRounds s (mids ++ [last]) = (invShiftSub (mids.foldl decRound s)).xor last := by
  induction mids generalizing s with
  | nil => rfl
  | cons rk mids ih =>
    rw [List.cons_append, decRounds_cons s rk (by simp), ih, List.foldl_cons]

/-- Rounds `g` over a list of keys, then rounds `f` over the reversed list, cancel up to `h` when one round does. -/
theorem foldl_reverse_cancel {f g : Block → Block → Block} {h : Block → Block}
    (hround : ∀ s rk, f (h (g s rk)) rk = h s) (rks : List Block) (s : Block) :
    rks.reverse.foldl f (h (rks.foldl g s)) = h s := by
  induction rks generalizing s with
  | nil => rfl
  | cons rk rks ih => simp only [List.reverse_cons, List.foldl_append, List.foldl_cons, List.foldl_nil, ih, hround]

/-! ### The cipher and the inverse cipher (R104, R108, R110) -/

theorem roundKeysFrom_ne_nil (rs : List Byte) (rk : Block) : roundKeysFrom rs rk ≠ [] := by
  cases rs <;> exact List.cons_ne_nil _ _

/-- The round keys are the cipher key, those of the middle rounds, and that of the last round (R108). -/
theorem roundKeys_eq_cons_concat (K : Block) : ∃ mids last, roundKeys K = K :: (mids ++ [last]) :=
  ⟨_, _, congrArg (K :: ·) (List.dropLast_append_getLast (roundKeysFrom_ne_nil _ _)).symm⟩

theorem aesEnc_of_roundKeys {K k last : Block} {mids : List Block} (h : roundKeys K = k :: (mids ++ [last]))
    (X : Block) : aesEnc K X = (subShift (mids.foldl encRound (X.xor k))).xor last := by
  simp only [aesEnc, h, encRounds_concat]

theorem aesDec_of_roundKeys {K k last : Block} {mids : List Block} (h : roundKeys K = k :: (mids ++ [last]))
    (X : Block) : aesDec K X = (invShiftSub (mids.reverse.foldl decRound (X.xor last))).xor k := by
  have hrev : (roundKeys K).reverse = last :: (mids.reverse ++ [k]) := by simp [h]
  simp only [aesDec, hrev, decRounds_concat]

theorem aesDec_aesEnc (K X : Block) : aesDec K (aesEnc K X) = X := by
  obtain ⟨mids, last, h⟩ := roundKeys_eq_cons_concat K
  rw [aesDec_of_roundKeys h, aesEnc_of_roundKeys h, Block.xor_xor_cancel,
    foldl_reverse_cancel decRound_subShift_encRound, invShiftSub_subShift, Block.xor_xor_cancel]

theorem aesEnc_aesDec (K X : Block) : aesEnc K (aesDec K X) = X := by
  obtain ⟨mids, last, h⟩ := roundKeys_eq_cons_concat K
  have hmids := foldl_reverse_cancel encRound_invShiftSub_decRound mids.reverse (X.xor last)
  rw [List.reverse_reverse] at hmids
  rw [aesEnc_of_roundKeys h, aesDec_of_roundKeys h, Block.xor_xor_cancel, hmids, subShift_invShiftSub,
    Block.xor_xor_cancel]

/-- Settles O46: each round of one cipher undoes the matching round of the other, whatever the round keys are. -/
theorem aesDecInvertsAesEnc : Obligations.AesDecInvertsAesEnc :=
  fun K X => ⟨aesDec_aesEnc K X, aesEnc_aesDec K X⟩

/-! ### The S-box (R105 to R107) -/

/-- The affine map A of R105. -/
def sboxAffine (b : Byte) : Byte :=
  b ^^^ b.rotateLeft 1 ^^^ b.rotateLeft 2 ^^^ b.rotateLeft 3 ^^^ b.rotateLeft 4 ^^^ 0x63#8

/-- The inverse of the affine map A: the rotations by 1, 3 and 6 invert its linear part, which takes 05 to 63. -/
def sboxAffineInv (b : Byte) : Byte := b.rotateLeft 1 ^^^ b.rotateLeft 3 ^^^ b.rotateLeft 6 ^^^ 0x05#8

theorem sboxAffine_sboxAffineInv (b : Byte) : sboxAffine (sboxAffineInv b) = b := by
  have h : ∀ b : Byte, sboxAffine (sboxAffineInv b) = b := by decide +kernel
  exact h b

/-- The table entry of 0 is A(0), as R105 takes 0 for the inverse of 0. -/
theorem sboxAffineInv_sbox_zero : sboxAffineInv (sbox 0#8) = 0#8 := by decide

/-- The table entry of a nonzero byte is A of its inverse (R105). -/
theorem gmul_sboxAffineInv_sbox (a : Byte) (ha : a ≠ 0#8) : gmul a (sboxAffineInv (sbox a)) = 1#8 := by
  have h : ∀ a : Byte, a ≠ 0#8 → gmul a (sboxAffineInv (sbox a)) = 1#8 := by decide +kernel
  exact h a ha

/-- Settles O47: the inverse of a is read back from its table entry through the inverse of the affine map. -/
theorem sboxIsAffineOfInverse : Obligations.SboxIsAffineOfInverse := by
  intro a
  refine ⟨⟨sboxAffineInv (sbox a), ?_, (sboxAffine_sboxAffineInv (sbox a)).symm⟩, invSbox_sbox a, sbox_invSbox a⟩
  split
  case isTrue h => rw [h, sboxAffineInv_sbox_zero]
  case isFalse h => exact gmul_sboxAffineInv_sbox a h

/-! ### The check values of CMAC (R114) -/

/-- Settles O51: the key and the messages are given, so each tag is computed. -/
theorem cmacCheckValues : Obligations.CmacCheckValues := by
  unfold Obligations.CmacCheckValues
  intro K m0 m1 m2 m3
  refine ⟨?empty, ?oneBlock, ?partialBlock, ?fourBlocks⟩
  case empty => decide +kernel
  case oneBlock => decide +kernel
  case partialBlock => decide +kernel
  case fourBlocks => decide +kernel

end Sys2Proof.Machine
end

section
/-! Proofs about the cipher commands (42_cipher.md R116 to R126): the completion of `CTR`, `CBCIV` and `CBCZ`, `CTR` as
its own inverse, and the round trip of `CBCIV`. -/

namespace Sys2Proof.Machine

/-! ### What a cipher command runs (R118, R122, R124) -/

/-- A well-formed command with its span in FBUF and its key valid passes the pre-checks (R139). -/
theorem precheck_eq_none_of_span_key (s : State) (i : Instr) {key : KeySel} {off n : Nat} (hw : i.wf = true)
    (hs : spanOf i = some (off, n)) (hf : off + n ≤ 256) (hu : keyUsed i = some key) (hk : s.keyValid key = true) :
    precheck s i = none := by
  refine precheck_none s i hw ?_ ?_
  · intro off' n' h
    cases hs.symm.trans h
    exact hf
  · intro key' h
    cases hu.symm.trans h
    exact hk

section
variable (s : State) (key : KeySel) (off : Nat) (S : Bytes) (ho : off < 256) (hS : s.fbuf.Holds off S)
  (hk : s.keyValid key = true)
include ho hS hk

theorem exec_ctr_of_holds (len : Nat) (hf : off + len ≤ 256) (hl : S.length = len) : exec (.ctr key off len) s =
    .next ({ s with fbuf := s.fbuf.writeSpan off (ctrXcrypt (s.keyOf key) s.ctrBlock S) }.finish .ok) := by
  have hw : (Instr.ctr key off len).wf = true := by simp [Instr.wf, ho, show len < 512 by omega]
  exact checked_onSpan_of_holds s _ off len S _ (precheck_eq_none_of_span_key s _ hw rfl hf rfl hk) hl hS

theorem exec_cbciv_of_holds (len : Nat) (hf : off + len ≤ 256) (hl : S.length = len) : exec (.cbciv key off len) s =
    .next (cbcFinish { s with fbuf := s.fbuf.writeSpan off (cbcDecrypt (s.keyOf key) s.iv5 S (len / 16)) }
      off (len / 16)) := by
  have hw : (Instr.cbciv key off len).wf = true := by simp [Instr.wf, ho, show len < 512 by omega]
  exact checked_onSpan_of_holds s _ off len S _ (precheck_eq_none_of_span_key s _ hw rfl hf rfl hk) hl hS

theorem exec_cbcz_of_holds (nblk : Nat) (hn : nblk < 16) (hf : off + 16 * nblk ≤ 256) (hl : S.length = 16 * nblk) :
    exec (.cbcz key off nblk) s =
      .next (cbcFinish { s with fbuf := s.fbuf.writeSpan off (cbcDecrypt (s.keyOf key) iv7 S nblk) } off nblk) := by
  have hw : (Instr.cbcz key off nblk).wf = true := by simp [Instr.wf, ho, hn]
  exact checked_onSpan_of_holds s _ off (16 * nblk) S _ (precheck_eq_none_of_span_key s _ hw rfl hf rfl hk) hl hS

end

/-! ### The completion of `CTR` (R116 to R118) -/

theorem State.ctrBlock_eq (s : State) (i : Nat) : s.ctrBlock i =
    Block.ofBytes (le4 s.hdr0 ++ le4 s.hdr1 ++ [s.cc] ++ le4 s.sn ++ le2 s.fn ++ [BitVec.ofNat 8 i]) := by
  simp only [State.ctrBlock, State.ctrBytes, State.hdr, List.append_assoc]

/-- Settles O30: `CTR` stores `ctr_xcrypt` of the span, byte k of which is given by counter block `k / 16`. -/
theorem ctrCompletes : Obligations.CtrCompletes := by
  intro s key off len S ho hf hl hS hwf hk
  have hrun := exec_ctr_of_holds s key off S ho hS hk len hf hl
  refine ⟨_, hrun, rfl, fun k => ?_, ctr_fbuf_frame s _ key off hwf len hrun⟩
  obtain ⟨b, hb, hx⟩ := ctrXcrypt_getElem (s.keyOf key) s.ctrBlock S k k.isLt
  have hlen : (ctrXcrypt (s.keyOf key) s.ctrBlock S).length = len := (ctrXcrypt_length _ _ S).trans hl
  refine ⟨b, ?_, s.ctrBlock_eq _ ▸ hb⟩
  rw [State.finish_fbuf, Memory.read_writeSpan_inside _ s.fbuf off k hwf (by omega) (by omega), hx]
  rfl

/-! ### The completion of `CBCIV` and `CBCZ` (R119 to R124) -/

/-- The end of a CBC decryption writes only fields of `STATUS`, the engine and `irq` (R120, R142). -/
theorem cbcFinish_frame (s : State) (off n : Nat) : cbcFinish s off n =
    { s with fbuf := (cbcFinish s off n).fbuf, sent := (cbcFinish s off n).sent, err := (cbcFinish s off n).err,
             eng := .idle, done := true, irq := s.irqen } := by
  rw [cbcFinish_eq]

/-- With no block decrypted there is no check (R120). -/
theorem cbcFinish_zero (s : State) (off : Nat) : (cbcFinish s off 0).sent = false ∧ (cbcFinish s off 0).err = .ok :=
  ⟨rfl, rfl⟩

/-- With a block decrypted `SENT` is the sentinel check and `ERR` says whether it failed (R120). -/
theorem cbcFinish_pos (s : State) (off n : Nat) (hn : n ≠ 0) :
    ((cbcFinish s off n).sent = true ↔ (cbcFinish s off n).fbuf.read off = some 0x2F#8 ∧
      (cbcFinish s off n).fbuf.read (off + 1) = some 0x2F#8) ∧
    (cbcFinish s off n).err = if (cbcFinish s off n).sent then .ok else .wrongkey := by
  rw [cbcFinish_fbuf, ← sentinelAt_iff, cbcFinish_eq]
  simp [hn]

/-- Settles O31: the blocks by the CBC chain on `IV5`, `SENT` and `ERR` by the end of a CBC decryption. -/
theorem cbcivCompletes : Obligations.CbcivCompletes := by
  intro s key off len S ho hf hl hS hwf hk
  have hrun := exec_cbciv_of_holds s key off S ho hS hk len hf hl
  obtain ⟨hblocks, -⟩ := cbcDecrypt_written s (s.keyOf key) s.iv5 off (len / 16) S (by omega) (by omega) hwf hS
  refine ⟨_, hrun, cbcFinish_frame _ _ _, ?_, cbciv_fbuf_frame s _ key off hwf len hrun, fun hlt => ?_, fun hge => ?_⟩
  · rw [cbcFinish_fbuf]
    exact hblocks
  · rw [Nat.div_eq_of_lt hlt]
    exact cbcFinish_zero _ off
  · exact cbcFinish_pos _ off _ (by omega)

/-- Settles O32: as for `CBCIV`, with the IV of R123 and the number of blocks given. -/
theorem cbczCompletes : Obligations.CbczCompletes := by
  intro s key off nblk S ho hn hf hl hS hwf hk
  have hrun := exec_cbcz_of_holds s key off S ho hS hk nblk hn hf hl
  obtain ⟨hblocks, -⟩ := cbcDecrypt_written s (s.keyOf key) iv7 off nblk S (by omega) (by omega) hwf hS
  refine ⟨_, hrun, cbcFinish_frame _ _ _, ?_, cbcz_fbuf_frame s _ key off hwf nblk hrun, ?_, fun hge => ?_⟩
  · rw [cbcFinish_fbuf]
    exact hblocks
  · rintro rfl
    exact cbcFinish_zero _ off
  · exact cbcFinish_pos _ off _ (by omega)

/-! ### `CTR` is its own inverse (R117, R118) -/

theorem ctrXcrypt_ctrXcrypt (K : Block) (ctr : Nat → Block) (S : Bytes) :
    ctrXcrypt K ctr (ctrXcrypt K ctr S) = S := by
  refine List.ext_getElem (by simp) fun k _ hk => ?_
  obtain ⟨b, hb, hx⟩ := ctrXcrypt_getElem K ctr S k hk
  obtain ⟨b', hb', hx'⟩ := ctrXcrypt_getElem K ctr (ctrXcrypt K ctr S) k (by simpa using hk)
  cases hb.symm.trans hb'
  rw [hx', hx, BitVec.xor_assoc, BitVec.xor_self, BitVec.xor_zero]

/-- Writing back what a span held undoes a write of the span. -/
theorem Memory.read_writeSpan_restore (m : Memory) (off : Nat) (S X : Bytes) (hwf : m.wf)
    (hfit : off + S.length ≤ 256) (hl : X.length = S.length) (hS : m.Holds off S) (a : Nat) :
    ((m.writeSpan off X).writeSpan off S).read a = m.read a := by
  have hwf' : (m.writeSpan off X).wf := Memory.writeSpan_wf X m off hwf
  by_cases hin : off ≤ a ∧ a < off + S.length
  · obtain ⟨k, rfl⟩ := Nat.exists_eq_add_of_le hin.1
    have hk : k < S.length := by omega
    rw [Memory.read_writeSpan_inside S _ off k hwf' hfit hk]
    exact (hS ⟨k, hk⟩).symm
  · rw [Memory.read_writeSpan_outside S _ off a hwf' hfit (by omega),
      Memory.read_writeSpan_outside X m off a hwf (by omega) (by omega)]

/-- No failed pre-check ends with `OK` (R139). -/
theorem precheck_ne_some_ok (s : State) (i : Instr) : precheck s i ≠ some .ok := fun h => by
  obtain h | h | h := precheck_eq_some s i .ok h <;> simp at h

/-- Settles O48: the second run passes the same pre-checks and has the same key and counter blocks, so it writes back
what the span held. -/
theorem ctrTwiceRestores : Obligations.CtrTwiceRestores := by
  refine ⟨ctrXcrypt_ctrXcrypt, fun s t key off len hwf h herr => ?_⟩
  obtain ⟨e, hp, rfl⟩ | ⟨hp, S, hl, hS, ht⟩ := exec_ctr_next s t key off len h
  · cases herr
    exact absurd hp (precheck_ne_some_ok s _)
  · have hfit := span_fits_of_precheck s _ off len hp rfl
    have hXl := ctrXcrypt_length (s.keyOf key) s.ctrBlock S
    have hback := ctrXcrypt_ctrXcrypt (s.keyOf key) s.ctrBlock S
    generalize ctrXcrypt (s.keyOf key) s.ctrBlock S = X at ht hXl hback
    have hfbuf : t.fbuf = s.fbuf.writeSpan off X := by rw [ht]; rfl
    have hpre : precheck t (.ctr key off len) = none := by rw [ht]; exact hp
    have hkey : t.keyOf key = s.keyOf key := by rw [ht]; rfl
    have hctr : t.ctrBlock = s.ctrBlock := by rw [ht]; rfl
    have hX : t.fbuf.Holds off X := hfbuf ▸ Memory.holds_writeSpan X s.fbuf off hwf (by omega)
    have hrun : exec (.ctr key off len) t =
        .next ({ t with fbuf := t.fbuf.writeSpan off (ctrXcrypt (t.keyOf key) t.ctrBlock X) }.finish .ok) :=
      checked_onSpan_of_holds t _ off len X _ hpre (hXl.trans hl) hX
    rw [hkey, hctr, hback, hfbuf] at hrun
    exact ⟨_, hrun, rfl, Memory.read_writeSpan_restore s.fbuf off S X hwf (by omega) hXl hS⟩

/-! ### The round trip of `CBCIV` (R125) -/

theorem Memory.Holds.read {m : Memory} {off k : Nat} {S : Bytes} {b : Byte} (h : m.Holds off S)
    (hb : S[k]? = some b) : m.read (off + k) = some b := by
  obtain ⟨hk, rfl⟩ := List.getElem?_eq_some_iff.mp hb
  exact h ⟨k, hk⟩

theorem blockAt_zero_append (b : Block) (S : Bytes) : blockAt (b.bytes ++ S) 0 = b := by
  simp only [blockAt, Nat.mul_zero, List.drop_zero, List.take_left' (Block.bytes_length b), Block.ofBytes_bytes]

theorem blockAt_zero_bytes (S : Bytes) (h : 16 ≤ S.length) : (blockAt S 0).bytes = S.take 16 :=
  Block.bytes_ofBytes _ (by simpa using h)

theorem cbcEncrypt_length (K prev : Block) (S : Bytes) (n : Nat) (h : 16 * n ≤ S.length) :
    (cbcEncrypt K prev S n).length = S.length := by
  induction n generalizing prev S with
  | zero => rfl
  | succ n ih =>
    simp only [cbcEncrypt, List.length_append, Block.bytes_length]
    rw [ih _ _ (by rw [List.length_drop]; omega), List.length_drop]
    omega

/-- CBC decryption undoes CBC encryption block by block: each block is decrypted, and the chain is the same ciphertext
block on both sides (R119, R125). -/
theorem cbcDecrypt_cbcEncrypt (K prev : Block) (S : Bytes) (n : Nat) (h : 16 * n ≤ S.length) :
    cbcDecrypt K prev (cbcEncrypt K prev S n) n = S := by
  induction n generalizing prev S with
  | zero => rfl
  | succ n ih =>
    have hdrop : 16 * n ≤ (S.drop 16).length := by rw [List.length_drop]; omega
    simp only [cbcEncrypt, cbcDecrypt, blockAt_zero_append, aesDec_aesEnc, Block.xor_xor_cancel]
    rw [List.drop_left' (Block.bytes_length _), ih _ _ hdrop, blockAt_zero_bytes S (by omega), List.take_append_drop]

/-- Settles O49: the decryption of the encryption is stored, and its first two bytes are the sentinel. -/
theorem cbcRoundTrip : Obligations.CbcRoundTrip := by
  intro s key off n P ho hf hl h0 h1 hwf hk hC
  have hn : n ≠ 0 := by
    rintro rfl
    simp [List.length_eq_zero_iff.mp hl] at h0
  have hlen := cbcEncrypt_length (s.keyOf key) s.iv5 P n hl.ge
  have hrun := exec_cbciv_of_holds s key off _ ho hC hk (16 * n) hf (hlen.trans hl)
  rw [Nat.mul_div_cancel_left n (by decide), cbcDecrypt_cbcEncrypt _ _ P n hl.ge, cbcFinish_eq] at hrun
  have hframe := cbciv_fbuf_frame s _ key off hwf (16 * n) hrun
  rw [Nat.mul_div_cancel_left n (by decide)] at hframe
  have hP : (s.fbuf.writeSpan off P).Holds off P := Memory.holds_writeSpan P s.fbuf off hwf (by omega)
  have hsent : sentinelAt (s.fbuf.writeSpan off P) off = true :=
    (sentinelAt_iff _ off).mpr ⟨hP.read h0, hP.read h1⟩
  refine ⟨_, hrun, hP, ?_, ?_, hframe⟩
  · simp only [hsent, or_true, if_true]
  · simp [hn, hsent]

end Sys2Proof.Machine
end

section
/-! Proofs about authentication and key derivation (43_cmac_kdf.md R127 to R132): the completion of `CMAC`, `CMACV` and
`KDF`, and what the bytes of `EXPMAC` decide. -/

namespace Sys2Proof.Machine

/-! ### What the commands compute (R127, R129, R131) -/

/-- The comparison of R129, one byte at a time. -/
theorem macOk_iff (p q : Quad) (m : Nat) : macOk p q m = true ↔ ∀ k, k < m → p.bytes[k]? = q.bytes[k]? := by
  rw [macOk, beq_iff_eq, List.ext_getElem?_iff]
  refine forall_congr' fun k => ?_
  by_cases hk : k < m <;> simp [hk]

/-- The bytes of `MAC` that `CMAC` and `CMACV` write, with the message spelled out (R127, R128). -/
theorem State.tag_bytes (s : State) (key : KeySel) (pfx : Bool) (S : Bytes) : (s.tag key pfx S).bytes =
    (cmac (s.keyOf key) ((if pfx then [s.mcl] ++ le4 s.mctr else []) ++ S)).bytes :=
  Quad.ofBlock_bytes _

/-- `EXPMAC` is no part of what the tag is computed from (R127). -/
theorem State.tag_with_expmac (s : State) (q : Quad) (key : KeySel) (pfx : Bool) (S : Bytes) :
    ({ s with expmac := q } : State).tag key pfx S = s.tag key pfx S := rfl

/-- The bytes of a derived key, with the KDF input spelled out (R131, R132). -/
theorem State.derived_bytes (s : State) (dc : DerivedKey) : (s.derived dc).bytes =
    (cmac (s.keyOf .kconf) ([dcByte dc] ++ le4 s.mctr ++ ((le4 s.hdr0 ++ le4 s.hdr1).drop 2).take 4 ++
      List.replicate 7 0x07#8)).bytes := by
  simp only [State.derived, Quad.ofBlock_bytes, State.kdfIn, kdfInput, State.hdr, State.keyOf, List.append_assoc,
    List.cons_append, List.nil_append]

/-! ### The completion of `CMAC` (R128) and `KDF` (R132) -/

/-- Settles O33: the tag of the span's message goes to `MAC`, and the completion ends OK. -/
theorem cmacCompletes : Obligations.CmacCompletes := by
  intro s key off len pfx S ho hf hl hS hk
  have hw : (Instr.cmac key off len pfx).wf = true := by simp [Instr.wf, ho, show len < 512 by omega]
  have hp := precheck_eq_none_of_span_key s _ hw rfl hf rfl hk
  exact ⟨_, checked_onSpan_of_holds s _ off len S _ hp hl hS, rfl, s.tag_bytes key pfx S⟩

/-- `KDF` uses `KCONF` and has no span, so its only pre-check that can fail is the one of `KVC` (R139). -/
theorem precheck_kdf_eq_none (s : State) (dc : DerivedKey) (hk : s.kvc = true) : precheck s (.kdf dc) = none := by
  refine precheck_none s _ rfl nofun fun k hu => ?_
  cases hu
  exact hk

/-- Settles O35: the key `DC` names gets the CMAC of the KDF input, and its valid bit. -/
theorem kdfCompletes : Obligations.KdfCompletes := fun s hk =>
  ⟨⟨_, checked_of_none s _ _ (precheck_kdf_eq_none s .kenc hk), rfl, s.derived_bytes .kenc⟩,
    ⟨_, checked_of_none s _ _ (precheck_kdf_eq_none s .kmac hk), rfl, s.derived_bytes .kmac⟩⟩

/-! ### The completion of `CMACV` (R130) -/

section
variable (s : State) (key : KeySel) (off len m : Nat) (pfx : Bool) (S : Bytes)

/-- `CMACV` past its pre-checks: the tag in `MAC`, the comparison in `MATCH`, and the code the comparison gives. -/
theorem exec_cmacv_of_precheck (hp : precheck s (.cmacv key off len m pfx) = none) (hl : S.length = len)
    (hS : s.fbuf.Holds off S) : exec (.cmacv key off len m pfx) s = .next
      { s with mac := s.tag key pfx S, matched := macOk (s.tag key pfx S) s.expmac m,
               err := if macOk (s.tag key pfx S) s.expmac m = true then .ok else .badmac,
               eng := .idle, done := true, irq := s.irqen } :=
  (checked_onSpan_of_holds s _ off len S _ hp hl hS).trans (congrArg _ (cmacvFinish_eq _ m))

/-- A `CMACV` that ends OK passed its pre-checks and found the declared bytes equal (R130). -/
theorem exec_cmacv_ok (t : State) (h : exec (.cmacv key off len m pfx) s = .next t) (herr : t.err = .ok) :
    precheck s (.cmacv key off len m pfx) = none ∧
      ∃ S, S.length = len ∧ s.fbuf.Holds off S ∧ macOk (s.tag key pfx S) s.expmac m = true := by
  obtain ⟨e, hp, rfl⟩ | ⟨hp, S, hl, hS, rfl⟩ := exec_cmacv_next s t key off len m pfx h
  · cases herr
    exact absurd hp (precheck_ne_some_ok s _)
  · refine ⟨hp, S, hl, hS, ?_⟩
    by_contra hne
    rw [cmacvFinish_eq] at herr
    simp [hne] at herr

end

/-- Settles O34: `MAC` gets the tag whatever the comparison says, and `MATCH` and `ERR` are the comparison. -/
theorem cmacvCompletes : Obligations.CmacvCompletes := by
  intro s key off len m pfx S ho hf hm hl hS hk
  have hw : (Instr.cmacv key off len m pfx).wf = true := by
    simp [Instr.wf, ho, show len < 512 by omega, show m ∈ Config.macLengths from hm]
  have hp := precheck_eq_none_of_span_key s _ hw rfl hf rfl hk
  exact ⟨_, exec_cmacv_of_precheck s key off len m pfx S hp hl hS, rfl, s.tag_bytes key pfx S, macOk_iff _ _ m, rfl⟩

/-- Settles O50: both runs compute one tag, whose first m bytes are those of the first `EXPMAC`; so the second
comparison is the one of the two `EXPMAC`. -/
theorem comparedMacBytesDecide : Obligations.ComparedMacBytesDecide := by
  intro s t q key off len m pfx _ h herr
  obtain ⟨hp, S, hl, hS, hok⟩ := exec_cmacv_ok s key off len m pfx t h herr
  have hrun := exec_cmacv_of_precheck s key off len m pfx S hp hl hS
  have hrun' := exec_cmacv_of_precheck { s with expmac := q } key off len m pfx S hp hl hS
  rw [State.tag_with_expmac] at hrun'
  cases hrun.symm.trans h
  have hsame := (macOk_iff _ _ m).mp hok
  refine ⟨fun ⟨k, hk, hne⟩ => ⟨_, hrun', ?_⟩, fun heq => ?_⟩
  · have hbad : ¬ macOk (s.tag key pfx S) q m = true := fun hq =>
      hne (((macOk_iff _ _ m).mp hq k hk).symm.trans (hsame k hk))
    simp [hbad]
  · have hgood : macOk (s.tag key pfx S) q m = true :=
      (macOk_iff _ _ m).mpr fun k hk => (hsame k hk).trans (heq k hk).symm
    rw [hrun', hgood, hok]

end Sys2Proof.Machine
end

section
/-! Proofs about the control commands (44_control.md R135, R136): the completion of `NOP` and of `KCLR`. -/

namespace Sys2Proof.Machine

/-- Settles O27: `NOP` is the completion with `OK` and nothing more. -/
theorem nopCompletes : Obligations.NopCompletes := exec_nop

/-- Settles O36: the derived keys are dropped whatever `ALL` is; `ALL` alone decides on `KCONF` and `KCW`. -/
theorem kclrCompletes : Obligations.KclrCompletes := by
  intro s all
  rw [exec_kclr]
  cases all with
  | false => rfl
  | true => rfl

end Sys2Proof.Machine
end

section
/-! Proofs about the exceptions (60_exceptions.md R137 to R140): the pre-checks in their order, and which command can end
with which error code. -/

namespace Sys2Proof.Machine

/-! ### The pre-checks (R139) -/

/-- When a span leaves FBUF (R94). -/
theorem spanLeaves_iff (i : Instr) :
    spanLeaves i = true ↔ ∃ off n, spanOf i = some (off, n) ∧ 256 < off + n := by
  unfold spanLeaves
  cases spanOf i with
  | none => simp
  | some p =>
    simp only [decide_eq_true_eq, Option.some.injEq, Prod.ext_iff]
    simp [Config.fbufSize]

/-- When a command lacks its key (R139). -/
theorem keyMissing_iff (s : State) (i : Instr) :
    keyMissing s i = true ↔ ∃ k, keyUsed i = some k ∧ s.keyValid k = false := by
  unfold keyMissing
  cases keyUsed i with
  | none => simp
  | some k => simp

/-- `RANGE` applies before the key is looked at. -/
theorem precheck_eq_range (s : State) (i : Instr) (hw : i.wf = true) (hs : spanLeaves i = true) :
    precheck s i = some .range := by
  simp [precheck, hw, hs]

/-- `NOKEY` applies when nothing before it does. -/
theorem precheck_eq_nokey (s : State) (i : Instr) (hw : i.wf = true) (hs : ¬ spanLeaves i = true)
    (hk : keyMissing s i = true) : precheck s i = some .nokey := by
  simp [precheck, hw, hs, hk]

/-- Every command runs its pseudocode behind the pre-checks. -/
theorem exec_eq_checked (i : Instr) (s : State) : ∃ body, exec i s = checked s i body := by
  cases i <;> exact ⟨_, rfl⟩

/-- A word whose command fails a pre-check completes with that code, and writes nothing but `STATUS`. -/
theorem completion_of_failed_precheck (w : Word) (s : State) (i : Instr) (e : ErrCode) (hd : decode w = .ok i)
    (hp : precheck s i = some e) : completion w s = .next (s.finish e) := by
  obtain ⟨body, hb⟩ := exec_eq_checked i s
  rw [completion_ok w s i hd, hb, checked_of_some s i body e hp]

/-- Settles O9: what a word decodes to is well formed, so after `ILLEGAL` the span decides, and after it the key. -/
theorem prechecksInOrder : Obligations.PrechecksInOrder := by
  intro w s
  refine ⟨fun e hd => completion_error w s e hd, fun i off n hd hs hf => ?_, fun i k hd hfit hu hk => ?_⟩
  · obtain ⟨hw, -⟩ := encodeInvertsDecode w i hd
    have hleaves : spanLeaves i = true := (spanLeaves_iff i).mpr ⟨off, n, hs, hf⟩
    exact completion_of_failed_precheck w s i .range hd (precheck_eq_range s i hw hleaves)
  · obtain ⟨hw, -⟩ := encodeInvertsDecode w i hd
    have hstays : ¬ spanLeaves i = true := fun hl => by
      obtain ⟨off, n, hs, hf⟩ := (spanLeaves_iff i).mp hl
      exact absurd hf (Nat.not_lt.mpr (hfit off n hs))
    have hmissing : keyMissing s i = true := (keyMissing_iff s i).mpr ⟨k, hu, hk⟩
    exact completion_of_failed_precheck w s i .nokey hd (precheck_eq_nokey s i hw hstays hmissing)

/-! ### The codes a command can end with (R137, R140) -/

/-- `EndsWithCode s i e`: the command i, completing at s, may end with the code e. Besides `OK` and a failed pre-check
there is one case per execution error and command that raises it. -/
inductive EndsWithCode (s : State) : Instr → ErrCode → Prop where
  | failedPrecheck (i : Instr) (e : ErrCode) (hp : precheck s i = some e) : EndsWithCode s i e
  | ok (i : Instr) : EndsWithCode s i .ok
  | badmac (k : KeySel) (off len m : Nat) (p : Bool) : EndsWithCode s (.cmacv k off len m p) .badmac
  | wrongkeyCbciv (k : KeySel) (off len : Nat) (h : 16 ≤ len) : EndsWithCode s (.cbciv k off len) .wrongkey
  | wrongkeyCbcz (k : KeySel) (off n : Nat) (h : 1 ≤ n) : EndsWithCode s (.cbcz k off n) .wrongkey
  | baddigit (off wid : Nat) : EndsWithCode s (.bcd off wid) .baddigit

/-- A CBC decryption ends `OK`, or `WRONGKEY` when it decrypted a block (R120). -/
theorem cbcFinish_err (s : State) (off n : Nat) :
    (cbcFinish s off n).err = .ok ∨ ((cbcFinish s off n).err = .wrongkey ∧ 1 ≤ n) := by
  obtain rfl | hn := Nat.eq_zero_or_pos n
  · exact .inl (cbcFinish_zero s off).2
  · obtain ⟨-, herr⟩ := cbcFinish_pos s off n hn.ne'
    rw [herr]
    split
    · exact .inl rfl
    · exact .inr ⟨rfl, hn⟩

/-- A verification ends `OK` or `BADMAC` (R130). -/
theorem cmacvFinish_err (s : State) (m : Nat) : (cmacvFinish s m).err = .ok ∨ (cmacvFinish s m).err = .badmac := by
  unfold cmacvFinish
  split
  · exact .inl rfl
  · exact .inr rfl

/-- A command that answers a next state ended with one of the codes above. -/
theorem exec_next_endsWithCode (i : Instr) (s t : State) (h : exec i s = .next t) : EndsWithCode s i t.err := by
  cases i with
  | nop => cases h; exact .ok _
  | crc16 off len =>
    obtain ⟨e, hp, rfl⟩ | ⟨-, S, -, -, rfl⟩ := exec_crc16_next s t _ _ h
    · exact .failedPrecheck _ _ hp
    · exact .ok _
  | bcd off wid =>
    obtain ⟨e, hp, rfl⟩ | ⟨-, S, -, -, ⟨r, -, rfl⟩ | ⟨-, rfl⟩⟩ := exec_bcd_next s t _ _ h
    · exact .failedPrecheck _ _ hp
    · exact .ok _
    · exact .baddigit _ _
  | ctr k off len =>
    obtain ⟨e, hp, rfl⟩ | ⟨-, S, -, -, rfl⟩ := exec_ctr_next s t _ _ _ h
    · exact .failedPrecheck _ _ hp
    · exact .ok _
  | cbciv k off len =>
    obtain ⟨e, hp, rfl⟩ | ⟨-, S, -, -, rfl⟩ := exec_cbciv_next s t _ _ _ h
    · exact .failedPrecheck _ _ hp
    · obtain herr | ⟨herr, hn⟩ := cbcFinish_err _ off (len / 16) <;> rw [herr]
      · exact .ok _
      · exact .wrongkeyCbciv _ _ _ (by omega)
  | cbcz k off n =>
    obtain ⟨e, hp, rfl⟩ | ⟨-, S, -, -, rfl⟩ := exec_cbcz_next s t _ _ _ h
    · exact .failedPrecheck _ _ hp
    · obtain herr | ⟨herr, hn⟩ := cbcFinish_err _ off n <;> rw [herr]
      · exact .ok _
      · exact .wrongkeyCbcz _ _ _ hn
  | cmac k off len p =>
    obtain ⟨e, hp, rfl⟩ | ⟨-, S, -, -, rfl⟩ := exec_cmac_next s t _ _ _ _ h
    · exact .failedPrecheck _ _ hp
    · exact .ok _
  | cmacv k off len m p =>
    obtain ⟨e, hp, rfl⟩ | ⟨-, S, -, -, rfl⟩ := exec_cmacv_next s t _ _ _ _ _ h
    · exact .failedPrecheck _ _ hp
    · obtain herr | herr := cmacvFinish_err { s with mac := s.tag k p S } m <;> rw [herr]
      · exact .ok _
      · exact .badmac _ _ _ _ _
  | kdf dc =>
    obtain ⟨e, hp, rfl⟩ | ⟨-, -, ⟨-, rfl⟩ | ⟨-, rfl⟩⟩ := exec_kdf_next s t _ h
    · exact .failedPrecheck _ _ hp
    · exact .ok _
    · exact .ok _
  | kclr all => cases all <;> cases h <;> exact .ok _

/-- Settles O10: each execution error comes from its own command, and a well-formed command can fail only the pre-checks
of its span and its key. -/
theorem errorCodesByCommand : Obligations.ErrorCodesByCommand := by
  intro i s t hw h
  have hc := exec_next_endsWithCode i s t h
  generalize t.err = e at hc
  cases hc with
  | failedPrecheck _ _ hp =>
    obtain ⟨-, hw'⟩ | ⟨rfl, hs⟩ | ⟨rfl, hk⟩ := precheck_eq_some s i e hp
    · simp [hw] at hw'
    · obtain ⟨off, n, hspan, -⟩ := (spanLeaves_iff i).mp hs
      exact ⟨nofun, fun _ => Option.isSome_of_eq_some hspan, nofun, nofun, nofun, nofun⟩
    · obtain ⟨k, hused, -⟩ := (keyMissing_iff s i).mp hk
      exact ⟨nofun, nofun, fun _ => Option.isSome_of_eq_some hused, nofun, nofun, nofun⟩
  | ok => exact ⟨nofun, nofun, nofun, nofun, nofun, nofun⟩
  | badmac k off len m p => exact ⟨nofun, nofun, nofun, fun _ => ⟨k, off, len, m, p, rfl⟩, nofun, nofun⟩
  | wrongkeyCbciv k off len hl =>
    exact ⟨nofun, nofun, nofun, nofun, fun _ => .inl ⟨k, off, len, hl, rfl⟩, nofun⟩
  | wrongkeyCbcz k off n hn => exact ⟨nofun, nofun, nofun, nofun, fun _ => .inr ⟨k, off, n, hn, rfl⟩, nofun⟩
  | baddigit off wid => exact ⟨nofun, nofun, nofun, nofun, nofun, fun _ => ⟨off, wid, rfl⟩⟩

end Sys2Proof.Machine
end

section
/-! Proofs about reset (70_reset_and_hazards.md R155 to R158): its values through the register map, and that a reset
leaves them from every state. -/

namespace Sys2Proof.Machine

/-! ### The reset values through the register map (R21, R156) -/

theorem regAt_id (off : Nat) (h : regAt off = some .id) : off = 0x000 := by
  unfold regAt at h
  split at h <;> cases h
  rfl

theorem regAt_ctrl (off : Nat) (h : regAt off = some .ctrl) : off = 0x004 := by
  unfold regAt at h
  split at h <;> cases h
  rfl

theorem Quad.get_zero : ∀ j : Fin 4, Quad.zero.get j = 0#32 := by decide

/-- The registers that do not read 0 after reset are `ID` and, for `CRCINV`, `CTRL` (R156). -/
theorem State.reset_regValue (r : Reg) (hid : r ≠ .id) (hctrl : r ≠ .ctrl) : State.reset.regValue r = 0#32 := by
  cases r with
  | id => exact absurd rfl hid
  | ctrl => exact absurd rfl hctrl
  | kconf j | kenc j | kmac j | expmac j | mac j => exact Quad.get_zero j
  | status | cmd | result0 | result1 | hdr0 | hdr1 | ellcs | ellsn | tplacc | aflmcl | aflmctr => rfl

theorem State.reset_regRead (off : Nat) (hid : off ≠ 0x000) (hctrl : off ≠ 0x004) :
    State.reset.regRead off = 0#32 := by
  cases hr : regAt off with
  | none => simp [State.regRead, hr]
  | some r =>
    rw [State.regRead_of_some _ _ r hr]
    refine State.reset_regValue r (fun h => hid ?_) (fun h => hctrl ?_)
    · exact regAt_id off (h ▸ hr)
    · exact regAt_ctrl off (h ▸ hr)

theorem State.reset_keyValid (k : KeySel) : State.reset.keyValid k = false := by cases k <;> rfl

/-! ### Asserting and releasing reset (R155) -/

section
variable (s : State)

/-- Only what is outside the block is left of the state before the reset. -/
theorem State.leaveReset_enterReset :
    s.enterReset.leaveReset = { State.reset with script := s.script, stopped := s.stopped } := rfl

/-- No register shows what is outside the block. -/
theorem State.regRead_outside (l : List Event) (p : Bool) (off : Nat) :
    { s with script := l, stopped := p }.regRead off = s.regRead off := rfl

theorem step_assertReset (rest : List Event) (h : s.script = .assertReset :: rest) :
    step s = .next { s with script := rest }.enterReset := by simp [step, serve, h]

theorem step_releaseReset (rest : List Event) (h : s.script = .releaseReset :: rest) :
    step s = .next { s with script := rest }.leaveReset := by simp [step, serve, h]

end

theorem coreRun_two (s t u : State) (h : step s = .next t) (h' : step t = .next u) :
    Sys2Proof.core.run 2 s = .next u :=
  (coreRun_succ_of_next Sys2Proof.core 1 s t h).trans ((coreRun_one Sys2Proof.core t).trans h')

/-- Settles O52: the registers one by one, and a reset leaves what is outside the block, which none of them shows. -/
theorem resetStateValues : Obligations.ResetStateValues := by
  refine ⟨rfl, rfl, rfl, fun off _ => State.reset_regRead off, Memory.read_nil, rfl, State.reset_keyValid, fun s => ?_⟩
  rw [s.leaveReset_enterReset]
  exact ⟨rfl, rfl, Memory.read_nil, fun off _ => State.reset.regRead_outside s.script s.stopped off⟩

/-- Settles O53: the first step asserts reset whatever the engine does, the second releases it. -/
theorem resetAbandonsTheCommand : Obligations.ResetAbandonsTheCommand := by
  intro s rest hs
  have hassert := step_assertReset s (.releaseReset :: rest) hs
  have hrelease := step_releaseReset { s with script := .releaseReset :: rest }.enterReset rest rfl
  exact coreRun_two s _ _ hassert hrelease

/-- Settles O54: the case of the reset values with nothing pending and reset released. -/
theorem resetMeetsInvariant : Obligations.ResetMeetsInvariant := State.reset_inv [] false false

end Sys2Proof.Machine
end
